-- ==== Sys2Proof/Config.lean ====
section
/-! DEFINITION. The implementation parameters of the block (spec/00_scope.md rule R4).
Every one is fixed by the spec; none is an argument of the model, and there is no free value: by rule
R8 no response depends on a random or implementation-chosen value. -/

namespace Sys2Proof

/-- `PAYLOAD_W`: width of the scanned payload. -/
def Config.payloadW : Nat := 32
/-- `FC_W`: width of the facility-code result. -/
def Config.fcW : Nat := 8
/-- `CN_W`: width of the card-number result. -/
def Config.cnW : Nat := 16
/-- `IDX_MAX`: the largest legal upper index of a range. -/
def Config.idxMax : Nat := 32
/-- `IDX_W`: width of a descriptor index register and of the range operands of `PAR`. -/
def Config.idxW : Nat := 6
/-- `CMD_W`: width of the command word. -/
def Config.cmdW : Nat := 48
/-- `RSP_W`: width of the response word. -/
def Config.rspW : Nat := 48
/-- `OP_W`: width of the opcode field. -/
def Config.opW : Nat := 4
/-- `ST_W`: width of the status field. -/
def Config.stW : Nat := 4
/-- `FRAME_W`: width of the rendered bit string's container, `PAYLOAD_W + 2`. -/
def Config.frameW : Nat := Config.payloadW + 2
/-- `LEN_W`: width of the rendered length field. -/
def Config.lenW : Nat := 6

end Sys2Proof
end

