-- ==== Sys2Proof/Word.lean ====
section
/-! DEFINITION. The word types of the block (spec/00_scope.md rules R4 to R6): every value is an
unsigned integer, bit 0 the least significant. The widths are those of Config (rule R4). -/

namespace Sys2Proof

/-- A command word or a response word, 48 bits (rules R30, R36). -/
abbrev Word := BitVec 48

/-- The scanned payload, `u32` (rule R6). -/
abbrev Payload := BitVec 32

/-- A bit index, `idx`, 0 to 63 (rule R6). -/
abbrev Idx := BitVec 6

/-- A facility code, `u8` (rule R6). -/
abbrev FacilityCode := BitVec 8

/-- A card number, `u16` (rule R6). -/
abbrev CardNumber := BitVec 16

/-- The container of the rendered bit string, 34 bits (rule R37). -/
abbrev Frame := BitVec 34

end Sys2Proof
end

