-- ==== Sys2Proof/Syntax.lean ====
section
/-! DEFINITION. The four commands of spec/opcode_table.json. Every operand is an immediate taken as it
stands (spec/30_encoding.md rule R42), so the operand types are the exact widths of rules R31 to R33. -/

namespace Sys2Proof

/-- The commands, operands in the order of the assembler syntax (rule R39). -/
inductive Instr where
  /-- `LDF`: load the format descriptor (spec/40_descriptor.md rule R45). -/
  | ldf (pe po fcl fcu cnl cnu : Idx)
  /-- `DEC`: decode a payload (spec/41_extract_decode.md rule R49). -/
  | dec (payload : Payload)
  /-- `PAR`: parity of an inclusive range of a payload (spec/42_parity.md rule R56). -/
  | par (payload : Payload) (lo hi : Idx)
  /-- `RND`: render a payload with its parity bits (spec/43_render.md rule R61). -/
  | rnd (payload : Payload)
  deriving DecidableEq, Repr

end Sys2Proof
end

