-- ==== Sys2Proof/Decode.lean ====
section
/-! DEFINITION. Decoding of the 48-bit command word, total and rejecting by name, the opcode map, and the
encoder (spec/30_encoding.md rules R30 to R38). -/

namespace Sys2Proof

/-- Why a word is no command (rule R35). Both are answered `IllegalCommand` (rule R73). -/
inductive DecodeError where
  /-- `OP` is 0x0, 0x5 or 0x6 to 0xF (rule R35 a). -/
  | unassignedOpcode (op : BitVec 4)
  /-- `OP` is assigned and a reserved bit is set (rule R35 b, c). -/
  | reservedBits (op : BitVec 4)
  deriving DecidableEq, Repr

/-- The opcode field `OP = cmd[47:44]` (rule R30). -/
def opcodeField (w : Word) : BitVec 4 := w.extractLsb' 44 4

/-- Format F, `cmd[43:36]` reserved (rule R31). -/
def decodeFormatF (w : Word) : Except DecodeError Instr :=
  if w.extractLsb' 36 8 = 0 then
    .ok (.ldf (w.extractLsb' 0 6) (w.extractLsb' 6 6) (w.extractLsb' 12 6)
      (w.extractLsb' 18 6) (w.extractLsb' 24 6) (w.extractLsb' 30 6))
  else .error (.reservedBits (opcodeField w))

/-- Format P, `cmd[43:32]` reserved, for the command `make` builds (rule R32). -/
def decodeFormatP (make : Payload → Instr) (w : Word) : Except DecodeError Instr :=
  if w.extractLsb' 32 12 = 0 then .ok (make (w.extractLsb' 0 32))
  else .error (.reservedBits (opcodeField w))

/-- Format R, no reserved bits (rule R33). -/
def decodeFormatR (w : Word) : Except DecodeError Instr :=
  .ok (.par (w.extractLsb' 0 32) (w.extractLsb' 32 6) (w.extractLsb' 38 6))

/-- The decoding procedure (rules R34, R35, R38). -/
def decode (w : Word) : Except DecodeError Instr :=
  if opcodeField w = 0x1#4 then decodeFormatF w
  else if opcodeField w = 0x2#4 then decodeFormatP .dec w
  else if opcodeField w = 0x3#4 then decodeFormatR w
  else if opcodeField w = 0x4#4 then decodeFormatP .rnd w
  else .error (.unassignedOpcode (opcodeField w))

/-- The word of a command, its fields from bit 47 down (rules R31 to R34). -/
def encode : Instr → Word
  | .ldf pe po fcl fcu cnl cnu => 0x1#4 ++ 0#8 ++ cnu ++ cnl ++ fcu ++ fcl ++ po ++ pe
  | .dec payload => 0x2#4 ++ 0#12 ++ payload
  | .par payload lo hi => 0x3#4 ++ hi ++ lo ++ payload
  | .rnd payload => 0x4#4 ++ 0#12 ++ payload

/-- A row of the opcode map: a word is the row's command when `w and mask = pattern` (rule R34;
the rule's column "match"). -/
structure OpcodeRow where
  mnemonic : String
  pattern : Word
  mask : Word
  deriving DecidableEq, Repr

def ldfRow : OpcodeRow := ⟨"LDF", 0x100000000000#48, 0xFFF000000000#48⟩
def decRow : OpcodeRow := ⟨"DEC", 0x200000000000#48, 0xFFFF00000000#48⟩
def parRow : OpcodeRow := ⟨"PAR", 0x300000000000#48, 0xF00000000000#48⟩
def rndRow : OpcodeRow := ⟨"RND", 0x400000000000#48, 0xFFFF00000000#48⟩

/-- The opcode map (rule R34). -/
def opcodeTable : List OpcodeRow := [ldfRow, decRow, parRow, rndRow]

/-- The row of a command (rule R34). -/
def rowOf : Instr → OpcodeRow
  | .ldf _ _ _ _ _ _ => ldfRow
  | .dec _ => decRow
  | .par _ _ _ => parRow
  | .rnd _ => rndRow

/-- The command word whose low `nbits` bits are those of `w` and whose other bits are 0. The word is
presented whole and in parallel, so no byte order enters (spec/20_memory.md rule R22 c). -/
def tableWord (nbits w : Nat) : Word := BitVec.ofNat 48 (w % 2 ^ nbits)

/-- What the decoder reads from a word given in the opcode table's numbering of bits. -/
def decodeTableWord (nbits w : Nat) : Option Instr := (decode (tableWord nbits w)).toOption

end Sys2Proof
end

