-- ==== Sys2Proof/Machine/State.lean ====
section
/-! DEFINITION. The state of the machine as plain data (spec/10_state.md, spec/70_reset_and_hazards.md).
The block itself is `Block`, the 37 bits of rule R12. Around it `State` holds what a run needs
(rule R89): the events the requester has presented and the responses the block has given. -/

namespace Sys2Proof.Machine

/-- The six descriptor registers `D.PE` to `D.CNU` (rule R10). -/
structure Descriptor where
  /-- `D.PE`, `parity_even`; read by no operation (rule R18). -/
  pe : Idx
  /-- `D.PO`, `parity_odd`; read by no operation (rule R18). -/
  po : Idx
  /-- `D.FCL`, `facility_code.lower`. -/
  fcl : Idx
  /-- `D.FCU`, `facility_code.upper`. -/
  fcu : Idx
  /-- `D.CNL`, `card_number.lower`. -/
  cnl : Idx
  /-- `D.CNU`, `card_number.upper`. -/
  cnu : Idx
  deriving DecidableEq, Repr

/-- The whole state of the block: 37 bits (rule R12). -/
structure Block where
  /-- The descriptor registers (rule R10). -/
  d : Descriptor
  /-- `FV`, format valid: a descriptor has been loaded since reset (rule R11). -/
  fv : Bool
  deriving DecidableEq, Repr

/-- What the requester can present, and nothing else (spec/70_reset_and_hazards.md rules R89, R90). -/
inductive Event where
  /-- One command word, any of the 2^48. -/
  | command (w : Word)
  /-- The reset event, between two commands (rule R82). -/
  | rst
  deriving DecidableEq, Repr

/-- The machine: the block, and the two ends of its port. -/
structure State where
  /-- The state of the block (rule R12). -/
  block : Block
  /-- The events presented and not yet taken, oldest first (rules R24, R89).
  DESIGN CHOICE: held as data outside the block, notes/assumptions/1.md. -/
  inputs : List Event
  /-- The response words given, oldest first, one for each command (rules R24, R36, R89).
  DESIGN CHOICE: the observation kept as data outside the block, notes/assumptions/2.md. -/
  responses : List Word
  deriving DecidableEq, Repr

/-- Why the machine stops. It has no constructor: every command, legal or not, gets its response and
leaves the block ready for the next, and no error is fatal (rules R8, R74, R77), so no step stops the
machine. Safe: nothing is declared stopped that goes on. See notes/assumptions/5.md. -/
inductive Fault where
  deriving DecidableEq, Repr

/-- Why the model declines a meaning. -/
inductive Refusal where
  /-- An arm of `exec` with no meaning yet. Raised by nothing: every command has its meaning. Safe. -/
  | notModelled (mnemonic : String)
  deriving DecidableEq, Repr

/-- The descriptor registers after reset (spec/10_state.md rule R17). -/
def Descriptor.reset : Descriptor := ⟨0, 0, 0, 0, 0, 0⟩

/-- The block after reset: `FV = 0` and six zeros (rules R17, R82). -/
def Block.reset : Block := ⟨Descriptor.reset, false⟩

/-- The machine right after reset, before the requester presents anything. -/
def State.reset : State := ⟨Block.reset, [], []⟩

end Sys2Proof.Machine
end

