-- ==== Sys2Proof/Machine/Operands.lean ====
section
/-! DEFINITION. The functions the commands compute with: slices, ranges, extraction, parity, natural
width, the rendered frame and its text. All over natural numbers, exact, narrowed only where the
spec narrows (spec/41_extract_decode.md rule R52). -/

namespace Sys2Proof.Machine

/-- `v[hi:lo]` of a word, both ends included (spec/00_scope.md rule R5). -/
def slice (v : Word) (hi lo : Nat) : Nat := v.toNat / 2 ^ lo % 2 ^ (hi - lo + 1)

/-- `p[i]`, 0 at or beyond the width of the payload (rule R5, spec/42_parity.md rule R58). -/
def bitAt (p : Payload) (i : Nat) : Nat := (p.getLsbD i).toNat

/-- `trunc_n(v)`, the low `n` bits (spec/00_scope.md rule R7). -/
def trunc (n v : Nat) : Nat := v % 2 ^ n

/-- `valid_range(lower, upper)` (spec/40_descriptor.md rule R43). -/
def validRange (lower upper : Nat) : Bool := decide (lower ≤ upper) && decide (upper ≤ Config.idxMax)

/-- Both ranges of the descriptor are valid: the test of `DEC` and `RND` (rule R44). -/
def Descriptor.valid (d : Descriptor) : Bool :=
  validRange d.fcl.toNat d.fcu.toNat && validRange d.cnl.toNat d.cnu.toNat

/-- `extract(p, lower, upper)`, over the half-open range `[lower, upper)` (spec/41_extract_decode.md
rule R47). The spec defines it for valid ranges only, and no command calls it on another
(notes/assumptions/8.md). -/
def extract (p : Payload) (lower upper : Nat) : Nat := (p.toNat >>> lower) % 2 ^ (upper - lower)

/-- `parity(p, lower, upper)`, over the INCLUSIVE range `[lower, upper]` (spec/42_parity.md rules R54,
R55). Defined by the spec for `lower ≤ upper` only (notes/assumptions/8.md). -/
def parity (p : Payload) (lower upper : Nat) : Nat :=
  ((List.range' lower (upper - lower + 1)).map (bitAt p)).sum % 2

/-- The facility code of a payload: extraction narrowed to 8 bits (rules R49, R50). -/
def facilityCode (d : Descriptor) (p : Payload) : Nat :=
  trunc Config.fcW (extract p d.fcl.toNat d.fcu.toNat)

/-- The card number of a payload: extraction narrowed to 16 bits (rules R49, R50). -/
def cardNumber (d : Descriptor) (p : Payload) : Nat :=
  trunc Config.cnW (extract p d.cnl.toNat d.cnu.toNat)

/-- `nbw(p)`, the natural binary width (spec/43_render.md rule R60). -/
def nbw (p : Payload) : Nat := if p = 0 then 1 else Nat.log2 p.toNat + 1

/-- `POB`, the odd-parity bit, from the card-number range (rule R63). -/
def oddParityBit (d : Descriptor) (p : Payload) : Nat :=
  if parity p d.cnl.toNat d.cnu.toNat = 0 then 1 else 0

/-- `PEB`, the even-parity bit, from the facility-code range (rule R63). -/
def evenParityBit (d : Descriptor) (p : Payload) : Nat :=
  if parity p d.fcl.toNat d.fcu.toNat = 1 then 1 else 0

/-- `LEN` (rules R61, R62). -/
def frameLen (p : Payload) : Nat := nbw p + 2

/-- `FRAME` (rules R61, R62). -/
def frame (d : Descriptor) (p : Payload) : Nat :=
  (evenParityBit d p <<< (nbw p + 1)) ||| (p.toNat <<< 1) ||| oddParityBit d p

/-- A binary digit as a character (rule R65). -/
def digitChar (b : Bool) : Char := if b then '1' else '0'

/-- `text(FRAME, LEN)`, the most significant digit first (rule R65). -/
def text (f : Frame) (len : Nat) : List Char :=
  (List.range len).map (fun k => digitChar (f.getLsbD (len - 1 - k)))

end Sys2Proof.Machine
end

