-- ==== Sys2Proof/Machine/Flags.lean ====
section
/-! DEFINITION. The status codes, the response word and its fields, and the tests on `FV` and on the
descriptor's ranges that come before any computation (spec/30_encoding.md rules R36, R37;
spec/60_exceptions.md rules R70 to R76). -/

namespace Sys2Proof.Machine

/-- The named statuses (rule R70). `invalidParity` is allocated and never produced (rule R75). -/
inductive Status where
  | ok
  | invalidParity
  | invalidRange
  | illegalCommand
  | noFormat
  deriving DecidableEq, Repr

/-- The number of a status (rule R70). -/
def Status.code : Status → BitVec 4
  | .ok => 0#4
  | .invalidParity => 1#4
  | .invalidRange => 2#4
  | .illegalCommand => 3#4
  | .noFormat => 4#4

/-- The response word of an error: `ST << 44` (spec/60_exceptions.md rule R74). -/
def errorResponse (k : Status) : Word := BitVec.ofNat 48 (k.code.toNat <<< 44)

/-- The response word of a successful `LDF`: all zeros (rules R37, R45). -/
def ldfResponse : Word := BitVec.ofNat 48 0

/-- The response word of a successful `DEC`, `(FC << 16) or CN` (rule R49). -/
def decOkResponse (fc cn : Nat) : Word := BitVec.ofNat 48 ((fc <<< 16) ||| cn)

/-- The response word of a successful `PAR`, `P` (rule R56). -/
def parOkResponse (bit : Nat) : Word := BitVec.ofNat 48 bit

/-- The response word of a successful `RND`, `(LEN << 34) or FRAME` (rule R61). -/
def rndOkResponse (len fr : Nat) : Word := BitVec.ofNat 48 ((len <<< 34) ||| fr)

/-- The status field `ST = rsp[47:44]` (rule R36). -/
def rspStatus (r : Word) : BitVec 4 := r.extractLsb' 44 4
/-- The result field `FC = rsp[23:16]` of `DEC` (rule R37). -/
def rspFacilityCode (r : Word) : FacilityCode := r.extractLsb' 16 8
/-- The result field `CN = rsp[15:0]` of `DEC` (rule R37). -/
def rspCardNumber (r : Word) : CardNumber := r.extractLsb' 0 16
/-- The result field `P = rsp[0]` of `PAR` (rule R37). -/
def rspParity (r : Word) : BitVec 1 := r.extractLsb' 0 1
/-- The result field `LEN = rsp[39:34]` of `RND` (rule R37). -/
def rspLen (r : Word) : BitVec 6 := r.extractLsb' 34 6
/-- The result field `FRAME = rsp[33:0]` of `RND` (rule R37). -/
def rspFrame (r : Word) : Frame := r.extractLsb' 0 34

/-- The response of a command that consumes the descriptor: `NoFormat` while `FV = 0`, then
`InvalidRange` if either range is invalid, and only then the result (rules R44, R71, R72, R76). -/
def withDescriptor (b : Block) (result : Descriptor → Word) : Word :=
  if b.fv = false then errorResponse .noFormat
  else if b.d.valid = false then errorResponse .invalidRange
  else result b.d

/-- The response of a command that consumes the range `(lo, hi)`: `InvalidRange` if it is invalid, and
only then the result (rules R44, R71). -/
def withRange (lo hi : Nat) (result : Word) : Word :=
  if validRange lo hi = false then errorResponse .invalidRange else result

end Sys2Proof.Machine
end

