-- ==== Sys2Proof/Machine/Ops.lean ====
section
/-! DEFINITION. The named operations over the state: taking an event from the port, answering a command,
raising an error, loading the descriptor, reset. -/

namespace Sys2Proof.Machine

/-- `respond`: one response word, after those already given (spec/20_memory.md rule R24,
spec/30_encoding.md rule R36). -/
def State.respond (s : State) (r : Word) : State := { s with responses := s.responses ++ [r] }

/-- `raise`: the error response and no change of the block; nothing is saved and control goes nowhere
(spec/60_exceptions.md rules R74, R77). -/
def State.raise (s : State) (k : Status) : State := s.respond (errorResponse k)

/-- The write of all six descriptor registers and of `FV`, together (spec/40_descriptor.md rule R45). -/
def State.loadDescriptor (s : State) (d : Descriptor) : State := { s with block := ⟨d, true⟩ }

/-- The effect of the event `rst`: the block as after reset, no response
(spec/70_reset_and_hazards.md rule R82). -/
def State.applyReset (s : State) : State := { s with block := Block.reset }

/-- The oldest event presented, and the state once the port has accepted it (rule R24). -/
def State.takeEvent (s : State) : Option (Event × State) :=
  match s.inputs with
  | [] => none
  | e :: rest => some (e, { s with inputs := rest })

/-- One more event in front of those presented, so that it is the next one taken. -/
def State.present (s : State) (e : Event) : State := { s with inputs := e :: s.inputs }

/-- What a step does when the requester presents nothing: nothing, all 37 bits persist
(spec/60_exceptions.md rule R80). DEDUCED, notes/assumptions/3.md. -/
def State.idle (s : State) : State := s

end Sys2Proof.Machine
end

