-- ==== Sys2Proof/Machine/Descriptor.lean ====
section
/-! DEFINITION. The command `LDF` (spec/40_descriptor.md). -/

namespace Sys2Proof.Machine

/-- `LDF`: any six values are loaded, no range is tested, and the answer is `OK` (rule R45). -/
def execLdf (pe po fcl fcu cnl cnu : Idx) (s : State) : Host.Outcome State Fault Refusal :=
  .next ((s.loadDescriptor ⟨pe, po, fcl, fcu, cnl, cnu⟩).respond ldfResponse)

end Sys2Proof.Machine
end

