-- ==== Sys2Proof/Machine/Extract.lean ====
section
/-! DEFINITION. The command `DEC` (spec/41_extract_decode.md). -/

namespace Sys2Proof.Machine

/-- The response to `DEC` on a block (rule R49). -/
def decResponse (b : Block) (payload : Payload) : Word :=
  withDescriptor b (fun d => decOkResponse (facilityCode d payload) (cardNumber d payload))

/-- `DEC`: the facility code and the card number of a payload; no state of the block is written
(rules R49, R51). -/
def execDec (payload : Payload) (s : State) : Host.Outcome State Fault Refusal :=
  .next (s.respond (decResponse s.block payload))

end Sys2Proof.Machine
end

