-- ==== Sys2Proof/Machine/Parity.lean ====
section
/-! DEFINITION. The command `PAR` (spec/42_parity.md). -/

namespace Sys2Proof.Machine

/-- The response to `PAR`: a function of its operands alone (rule R56). -/
def parResponse (payload : Payload) (lo hi : Idx) : Word :=
  withRange lo.toNat hi.toNat (parOkResponse (parity payload lo.toNat hi.toNat))

/-- `PAR`: the parity of an inclusive range; no state of the block is read or written (rule R56). -/
def execPar (payload : Payload) (lo hi : Idx) (s : State) : Host.Outcome State Fault Refusal :=
  .next (s.respond (parResponse payload lo hi))

end Sys2Proof.Machine
end

