-- ==== Sys2Proof/Machine/Render.lean ====
section
/-! DEFINITION. The command `RND` (spec/43_render.md). -/

namespace Sys2Proof.Machine

/-- The response to `RND` on a block (rule R61). -/
def rndResponse (b : Block) (payload : Payload) : Word :=
  withDescriptor b (fun d => rndOkResponse (frameLen payload) (frame d payload))

/-- `RND`: the payload's digits between the two parity bits; no state of the block is written
(rule R61). -/
def execRnd (payload : Payload) (s : State) : Host.Outcome State Fault Refusal :=
  .next (s.respond (rndResponse s.block payload))

end Sys2Proof.Machine
end

