-- ==== Sys2Proof/Machine/Dispatch.lean ====
section
/-! DEFINITION. One arm for each command of spec/opcode_table.json. -/

namespace Sys2Proof.Machine

def exec (i : Instr) (s : State) : Host.Outcome State Fault Refusal :=
  match i with
  | .ldf pe po fcl fcu cnl cnu => Sys2Proof.Machine.execLdf pe po fcl fcu cnl cnu s
  | .dec payload => Sys2Proof.Machine.execDec payload s
  | .par payload lo hi => Sys2Proof.Machine.execPar payload lo hi s
  | .rnd payload => Sys2Proof.Machine.execRnd payload s

end Sys2Proof.Machine
end

