-- ==== Sys2Proof/Machine/Step.lean ====
section
/-! DEFINITION. One step of the machine: it takes the oldest event presented and acts on it, whole
(spec/20_memory.md rules R23, R24). The block fetches nothing (spec/10_state.md rule R14). -/

namespace Sys2Proof.Machine

/-- One step (spec/30_encoding.md rule R38, spec/70_reset_and_hazards.md rules R82, R89): a command word
is decoded and executed, or answered `IllegalCommand` before any other test (rule R76); `rst` resets
the block; with no event presented the machine idles. -/
def step (s : State) : Host.Outcome State Fault Refusal :=
  match s.takeEvent with
  | none => .next s.idle
  | some (.rst, t) => .next t.applyReset
  | some (.command w, t) =>
    match decode w with
    | .ok i => exec i t
    | .error _ => .next (t.raise .illegalCommand)

/-- The requester presents the command word whose low `nbits` bits are those of `w`, as the next event
to be taken (notes/assumptions/1.md). -/
def State.withFetchWord (s : State) (nbits w : Nat) : State := s.present (.command (tableWord nbits w))

end Sys2Proof.Machine
end

