-- ==== Sys2Proof/WellFormed.lean ====
section
/-! DEFINITION. Well-formedness of assembler lines (spec/30_encoding.md rule R39: "An operand out of its
range is an assembly error").
A term of `Instr` has operands of the exact field widths (rule R42), so every `Instr` is well formed
and no statement needs that as a hypothesis; the checks below are about the numbers a requester
writes in a line of assembly. -/

namespace Sys2Proof

/-- A line of assembly (rules R39, R40): a mnemonic with its numeric operands, of any size. -/
inductive AsmLine where
  | ldf (pe po fcl fcu cnl cnu : Nat)
  | dec (payload : Nat)
  | par (payload lo hi : Nat)
  | rnd (payload : Nat)
  /-- The pseudo-instruction `LDF.STD` (rule R40). -/
  | ldfStd
  deriving DecidableEq, Repr

/-- An index operand is 0 to 63 (rule R39). -/
def idxInRange (n : Nat) : Bool := decide (n ≤ 63)

/-- A payload operand is 0 to 4294967295 (rule R39). -/
def payloadInRange (n : Nat) : Bool := decide (n ≤ 4294967295)

/-- Every operand of the line is in its range (rule R39). -/
def AsmLine.wellFormed : AsmLine → Bool
  | .ldf pe po fcl fcu cnl cnu =>
    idxInRange pe && idxInRange po && idxInRange fcl && idxInRange fcu && idxInRange cnl && idxInRange cnu
  | .dec payload => payloadInRange payload
  | .par payload lo hi => payloadInRange payload && idxInRange lo && idxInRange hi
  | .rnd payload => payloadInRange payload
  | .ldfStd => true

/-- The line of assembly that spells a command (rule R39). -/
def Instr.toAsm : Instr → AsmLine
  | .ldf pe po fcl fcu cnl cnu => .ldf pe.toNat po.toNat fcl.toNat fcu.toNat cnl.toNat cnu.toNat
  | .dec payload => .dec payload.toNat
  | .par payload lo hi => .par payload.toNat lo.toNat hi.toNat
  | .rnd payload => .rnd payload.toNat

end Sys2Proof
end

