-- ==== Sys2Proof/Machine/Assembler.lean ====
section
/-! DEFINITION. The assembler of spec/30_encoding.md rules R39 and R40: the word of a line of assembly, and
the reading of a line's characters. It stands outside the block; a requester uses it to spell
commands. What rule R39 leaves open of the line's characters is fixed in notes/assumptions/9.md. -/

namespace Sys2Proof.Machine

/-- The column "encodes as" of rule R39, over the operands as numbers. -/
def asmNumber : AsmLine → Nat
  | .ldf pe po fcl fcu cnl cnu =>
    0x100000000000 ||| pe ||| (po <<< 6) ||| (fcl <<< 12) ||| (fcu <<< 18) ||| (cnl <<< 24) ||| (cnu <<< 30)
  | .dec payload => 0x200000000000 ||| payload
  | .par payload lo hi => 0x300000000000 ||| payload ||| (lo <<< 32) ||| (hi <<< 38)
  | .rnd payload => 0x400000000000 ||| payload
  | .ldfStd => 0x100400610640

/-- The word of a line; none for an assembly error, an operand out of its range (rule R39). -/
def assemble (a : AsmLine) : Option Word :=
  if a.wellFormed then some (BitVec.ofNat 48 (asmNumber a)) else none

/-- A blank between the parts of a line. -/
def isBlank (c : Char) : Bool := c == ' ' || c == '\t'

/-- The line without the blanks at its two ends. -/
def trimBlanks (cs : List Char) : List Char := ((cs.dropWhile isBlank).reverse.dropWhile isBlank).reverse

/-- The characters between commas, at least one piece. -/
def splitCommas : List Char → List (List Char)
  | [] => [[]]
  | c :: cs =>
    if c = ',' then [] :: splitCommas cs
    else match splitCommas cs with
      | [] => [[c]]
      | piece :: pieces => (c :: piece) :: pieces

/-- The value of a hexadecimal digit. -/
def digitValue (c : Char) : Option Nat :=
  if '0' ≤ c ∧ c ≤ '9' then some (c.toNat - '0'.toNat)
  else if 'a' ≤ c ∧ c ≤ 'f' then some (c.toNat - 'a'.toNat + 10)
  else if 'A' ≤ c ∧ c ≤ 'F' then some (c.toNat - 'A'.toNat + 10)
  else none

/-- The number spelled by digits of a base, the most significant first, after the value `acc`. -/
def readDigits (base acc : Nat) : List Char → Option Nat
  | [] => some acc
  | c :: cs =>
    match digitValue c with
    | some v => if v < base then readDigits base (acc * base + v) cs else none
    | none => none

/-- A number, decimal, or hexadecimal after `0x` (rule R39). -/
def readNumber : List Char → Option Nat
  | [] => none
  | '0' :: 'x' :: [] => none
  | '0' :: 'x' :: cs => readDigits 16 0 cs
  | cs => readDigits 10 0 cs

/-- The operands, in order; none if one is no number. -/
def readOperands : List (List Char) → Option (List Nat)
  | [] => some []
  | piece :: pieces =>
    match readNumber (trimBlanks piece), readOperands pieces with
    | some n, some ns => some (n :: ns)
    | _, _ => none

/-- A mnemonic with its operands as a line (the column "syntax" of rule R39, and rule R40). -/
def lineOf (mnemonic : List Char) (operands : List Nat) : Option AsmLine :=
  if mnemonic = ['L', 'D', 'F'] then
    match operands with
    | [pe, po, fcl, fcu, cnl, cnu] => some (.ldf pe po fcl fcu cnl cnu)
    | _ => none
  else if mnemonic = ['D', 'E', 'C'] then
    match operands with
    | [payload] => some (.dec payload)
    | _ => none
  else if mnemonic = ['P', 'A', 'R'] then
    match operands with
    | [payload, lo, hi] => some (.par payload lo hi)
    | _ => none
  else if mnemonic = ['R', 'N', 'D'] then
    match operands with
    | [payload] => some (.rnd payload)
    | _ => none
  else if mnemonic = ['L', 'D', 'F', '.', 'S', 'T', 'D'] then
    match operands with
    | [] => some .ldfStd
    | _ => none
  else none

/-- The reading of one line: a comment starts at `;`, then the mnemonic, then the operands separated by
commas (rule R39). None for a line that is no command. -/
def readLine (cs : List Char) : Option AsmLine :=
  let body := trimBlanks (cs.takeWhile (fun c => c ≠ ';'))
  let mnemonic := body.takeWhile (fun c => !isBlank c)
  let rest := trimBlanks (body.drop mnemonic.length)
  match (if rest = [] then some [] else readOperands (splitCommas rest)) with
  | some operands => lineOf mnemonic operands
  | none => none

end Sys2Proof.Machine
end

