-- ==== Sys2Proof/Machine/Transaction.lean ====
section
/-! DEFINITION. The block at the level the spec describes it: a total function
`step : State × Cmd → State × Rsp` over the 37 bits (spec/00_scope.md rule R9), written line by line from
the procedure of spec/30_encoding.md rule R38 with its slices `cmd[hi:lo]`, and a run of it
(spec/70_reset_and_hazards.md rule R89). It does not go through `decode` and `exec`; that the machine's
`step` agrees with it is stated for the provers. -/

namespace Sys2Proof.Machine

/-- The procedure `step(state, cmd)` (rule R38). -/
def transact (b : Block) (cmd : Word) : Block × Word :=
  let op := slice cmd 47 44
  if op = 1 then
    if slice cmd 43 36 ≠ 0 then (b, errorResponse .illegalCommand)
    else
      (⟨⟨BitVec.ofNat 6 (slice cmd 5 0), BitVec.ofNat 6 (slice cmd 11 6), BitVec.ofNat 6 (slice cmd 17 12),
        BitVec.ofNat 6 (slice cmd 23 18), BitVec.ofNat 6 (slice cmd 29 24), BitVec.ofNat 6 (slice cmd 35 30)⟩,
        true⟩, ldfResponse)
  else if op = 2 then
    if slice cmd 43 32 ≠ 0 then (b, errorResponse .illegalCommand)
    else (b, decResponse b (BitVec.ofNat 32 (slice cmd 31 0)))
  else if op = 3 then
    (b, parResponse (BitVec.ofNat 32 (slice cmd 31 0)) (BitVec.ofNat 6 (slice cmd 37 32))
      (BitVec.ofNat 6 (slice cmd 43 38)))
  else if op = 4 then
    if slice cmd 43 32 ≠ 0 then (b, errorResponse .illegalCommand)
    else (b, rndResponse b (BitVec.ofNat 32 (slice cmd 31 0)))
  else (b, errorResponse .illegalCommand)

/-- One event of a run: a command word is answered by one response word, `rst` by none (rule R89). -/
def applyEvent (b : Block) : Event → Block × List Word
  | .command w => ((transact b w).1, [(transact b w).2])
  | .rst => (Block.reset, [])

/-- A run over a finite sequence of events, and what is observed of it (rule R89). -/
def runEvents : Block → List Event → Block × List Word
  | b, [] => (b, [])
  | b, e :: rest =>
    ((runEvents (applyEvent b e).1 rest).1, (applyEvent b e).2 ++ (runEvents (applyEvent b e).1 rest).2)

end Sys2Proof.Machine
end

