-- ==== Sys2Proof/Safety.lean ====
section
/-! DEFINITION. The terms claims are stated in: illegal words, legal responses, fault-free runs, the
invariants, and what the state of the block stands for. -/

namespace Sys2Proof.Machine

/-- The illegal words, by the fields of the word (spec/30_encoding.md rule R35). -/
def illegalWord (w : Word) : Bool :=
  decide (slice w 47 44 = 0 ∨ slice w 47 44 = 5 ∨ 6 ≤ slice w 47 44)
    || decide (slice w 47 44 = 1 ∧ slice w 43 36 ≠ 0)
    || decide ((slice w 47 44 = 2 ∨ slice w 47 44 = 4) ∧ slice w 43 32 ≠ 0)

/-- The invariant of the descriptor: `lower ≤ upper ≤ 32` for both ranges (spec/40_descriptor.md
rule R43). -/
abbrev Descriptor.RangesOk (d : Descriptor) : Prop :=
  (d.fcl.toNat ≤ d.fcu.toNat ∧ d.fcu.toNat ≤ 32) ∧ (d.cnl.toNat ≤ d.cnu.toNat ∧ d.cnu.toNat ≤ 32)

/-- A response word the block may give: status 0, 2, 3 or 4, `rsp[43:40]` zero, and nothing beside the
status in an error (spec/30_encoding.md rule R36, spec/60_exceptions.md rules R70, R75). -/
def LegalResponse (r : Word) : Prop :=
  (rspStatus r = 0 ∨ rspStatus r = 2 ∨ rspStatus r = 3 ∨ rspStatus r = 4) ∧
    r.extractLsb' 40 4 = 0 ∧ (rspStatus r ≠ 0 → r.extractLsb' 0 44 = 0)

/-- Every response given so far is legal. -/
def ResponsesLegal (s : State) : Prop := ∀ r ∈ s.responses, LegalResponse r

/-- A run had no fault: a claim about its response words (spec/70_reset_and_hazards.md rule R89). -/
def FaultFree (s : State) : Prop := ∀ r ∈ s.responses, rspStatus r = 0

/-- While `FV = 0` the descriptor registers hold their reset values (spec/10_state.md rules R11, R17). -/
def UnloadedIsReset (s : State) : Prop := s.block.fv = false → s.block.d = Descriptor.reset

/-- The descriptor as an optional value, absent until one is loaded (rule R17). -/
def Block.current (b : Block) : Option Descriptor := if b.fv then some b.d else none

/-- Two blocks with the same `FV` and, where it is 1, the same two ranges: they may differ in `D.PE` and
`D.PO` (rule R18), and in every register while `FV = 0` (rule R17). -/
def Block.SameFormat (a b : Block) : Prop :=
  a.fv = b.fv ∧ (a.fv = true →
    a.d.fcl = b.d.fcl ∧ a.d.fcu = b.d.fcu ∧ a.d.cnl = b.d.cnl ∧ a.d.cnu = b.d.cnu)

/-- The descriptor in force after some events, if `c` was before them: that of the last `LDF` since the
last `rst` (rules R11, R13). It looks at the events alone. -/
def lastLoaded (c : Option Descriptor) : List Event → Option Descriptor
  | [] => c
  | .rst :: rest => lastLoaded none rest
  | .command w :: rest =>
    match decode w with
    | .ok (.ldf pe po fcl fcu cnl cnu) => lastLoaded (some ⟨pe, po, fcl, fcu, cnl, cnu⟩) rest
    | _ => lastLoaded c rest

/-- The event is a command word other than an `LDF`: `DEC`, `PAR`, `RND` or an illegal word. -/
def readsOnly : Event → Bool
  | .rst => false
  | .command w =>
    match decode w with
    | .ok (.ldf _ _ _ _ _ _) => false
    | _ => true

/-- How many of the bit positions `lower` to `upper`, both included, are set in the payload. -/
def setBits (p : Payload) (lower upper : Nat) : Nat :=
  ((Finset.Icc lower upper).filter (fun i => p.getLsbD i = true)).card

end Sys2Proof.Machine
end

