-- ==== Sys2Proof/Certificates/Slice0/Obligations.lean ====
section
/-! DEFINITION. The statements for the provers, from the numbered rules of spec/. Numbers are as the spec
writes them: a division by `2 ^ k` is a shift right by `k`, a remainder by `2 ^ k` keeps the low `k`
bits. Where a statement gives the next state as an equation, it is that command's frame as well: all
that the equation does not name is unchanged. -/

open Sys2Proof Sys2Proof.Machine

/-! ## Reset, the port and the step -/

/-- R82: `rst` clears `FV` and the six registers and produces no response word; the first state of a
run has the block so cleared. -/
def Obligations.ResetClearsBlock : Prop :=
  (core.reset).block = ⟨⟨0, 0, 0, 0, 0, 0⟩, false⟩ ∧
  ∀ (s : State) (rest : List Event), s.inputs = .rst :: rest →
    step s = .next ⟨⟨⟨0, 0, 0, 0, 0, 0⟩, false⟩, rest, s.responses⟩

/-- R38: a step runs the command the next word decodes to, on the block as it stands, with the word
taken from the port. -/
def Obligations.StepRunsDecodedCommand : Prop :=
  ∀ (s : State) (w : Word) (rest : List Event) (i : Instr),
    s.inputs = .command w :: rest → decode w = .ok i →
      step s = exec i { s with inputs := rest }

/-- A word presented with `withFetchWord` is the one the next step runs, and nothing is lost of what was
presented before (the model's port, notes/assumptions/1.md). -/
def Obligations.PresentedWordRunsNext : Prop :=
  ∀ (s : State) (nbits w : Nat) (i : Instr), decodeTableWord nbits w = some i →
    step (s.withFetchWord nbits w) = exec i s

/-- R8, R24, R90: no step stops the machine. It takes the oldest event presented, keeps the later ones
and every response already given, and adds one response word for a command word and none for `rst` or
for no event (the idle step is the model's, notes/assumptions/3.md). -/
def Obligations.StepAnswersEveryEvent : Prop :=
  ∀ s : State, ∃ (t : State) (new : List Word),
    step s = .next t ∧ t.inputs = s.inputs.tail ∧ t.responses = s.responses ++ new ∧
    new.length = (match s.inputs with | .command _ :: _ => 1 | _ => 0)

/-- R80: with no event presented the state persists (the model's idle step, notes/assumptions/3.md). -/
def Obligations.IdleStepKeepsState : Prop :=
  ∀ s : State, s.inputs = [] → step s = .next s

/-- R83: reset loads no usable descriptor: `DEC` and `RND` answer `NoFormat` after it and any commands
but `LDF`; no command clears `FV` or brings the block back to the reset state, only `rst` does. -/
def Obligations.OnlyResetReturnsToReset : Prop :=
  (∀ (es : List Event) (p : Payload), (∀ e ∈ es, readsOnly e = true) →
    (runEvents Block.reset (es ++ [.command (encode (.dec p)), .command (encode (.rnd p))])).2 =
      (runEvents Block.reset es).2 ++ [0x400000000000#48, 0x400000000000#48]) ∧
  (∀ s t : State, step s = .next t →
    (s.block.fv = true ∧ t.block.fv = false) ∨ (s.block ≠ Block.reset ∧ t.block = Block.reset) →
      ∃ rest, s.inputs = .rst :: rest)

/-! ## The commands -/

/-- R45: `LDF` loads any six values, sets `FV`, tests nothing and answers `000000000000`; with a reserved
bit set it answers `IllegalCommand` and leaves the registers and `FV`; an invalid range loaded is
refused by the next `DEC` and `RND`. -/
def Obligations.LdfLoadsDescriptor : Prop :=
  (∀ (s : State) (pe po fcl fcu cnl cnu : Idx),
    exec (.ldf pe po fcl fcu cnl cnu) s =
      .next ⟨⟨⟨pe, po, fcl, fcu, cnl, cnu⟩, true⟩, s.inputs, s.responses ++ [0x000000000000#48]⟩) ∧
  (∀ w : Word, slice w 47 44 = 1 → slice w 43 36 = 0 →
    decode w = .ok (.ldf (BitVec.ofNat 6 (slice w 5 0)) (BitVec.ofNat 6 (slice w 11 6))
      (BitVec.ofNat 6 (slice w 17 12)) (BitVec.ofNat 6 (slice w 23 18))
      (BitVec.ofNat 6 (slice w 29 24)) (BitVec.ofNat 6 (slice w 35 30)))) ∧
  (∀ (s : State) (w : Word) (rest : List Event), s.inputs = .command w :: rest →
    slice w 47 44 = 1 → slice w 43 36 ≠ 0 →
      step s = .next ⟨s.block, rest, s.responses ++ [0x300000000000#48]⟩) ∧
  (∀ (s : State) (p : Payload) (pe po fcl fcu cnl cnu : Idx),
    ¬ ((fcl.toNat ≤ fcu.toNat ∧ fcu.toNat ≤ 32) ∧ (cnl.toNat ≤ cnu.toNat ∧ cnu.toNat ≤ 32)) →
    ∀ t, exec (.ldf pe po fcl fcu cnl cnu) s = .next t →
      exec (.dec p) t = .next { t with responses := t.responses ++ [0x200000000000#48] } ∧
      exec (.rnd p) t = .next { t with responses := t.responses ++ [0x200000000000#48] })

/-- R49: with a descriptor loaded whose two ranges are valid, `DEC` answers `OK` with the facility code
(the half-open range narrowed to 8 bits) and the card number (narrowed to 16), every other response bit
0, and changes nothing else. Otherwise it answers `NoFormat`, then `InvalidRange`, carrying nothing; a
word with a reserved bit set is answered `IllegalCommand`. -/
def Obligations.DecReturnsFields : Prop :=
  (∀ (s : State) (p : Payload), s.block.fv = true → s.block.d.RangesOk →
    ∃ r : Word, exec (.dec p) s = .next { s with responses := s.responses ++ [r] } ∧
      rspStatus r = 0 ∧
      (rspFacilityCode r).toNat =
        p.toNat / 2 ^ s.block.d.fcl.toNat % 2 ^ (s.block.d.fcu.toNat - s.block.d.fcl.toNat) % 2 ^ 8 ∧
      (rspCardNumber r).toNat =
        p.toNat / 2 ^ s.block.d.cnl.toNat % 2 ^ (s.block.d.cnu.toNat - s.block.d.cnl.toNat) % 2 ^ 16 ∧
      r.toNat = (rspFacilityCode r).toNat * 2 ^ 16 + (rspCardNumber r).toNat) ∧
  (∀ (s : State) (p : Payload), s.block.fv = false →
    exec (.dec p) s = .next { s with responses := s.responses ++ [0x400000000000#48] }) ∧
  (∀ (s : State) (p : Payload), s.block.fv = true → ¬ s.block.d.RangesOk →
    exec (.dec p) s = .next { s with responses := s.responses ++ [0x200000000000#48] }) ∧
  (∀ w : Word, slice w 47 44 = 2 → slice w 43 32 = 0 →
    decode w = .ok (.dec (BitVec.ofNat 32 (slice w 31 0)))) ∧
  (∀ (s : State) (w : Word) (rest : List Event), s.inputs = .command w :: rest →
    slice w 47 44 = 2 → slice w 43 32 ≠ 0 →
      step s = .next ⟨s.block, rest, s.responses ++ [0x300000000000#48]⟩)

/-- R56: `PAR` on a valid range answers `OK` with the parity of the inclusive range, in every state,
whatever the descriptor and `FV`, and changes nothing else; on any other range it answers
`InvalidRange`; every word with its opcode is legal. -/
def Obligations.ParReturnsParity : Prop :=
  (∀ (s : State) (p : Payload) (lo hi : Idx), lo.toNat ≤ hi.toNat → hi.toNat ≤ 32 →
    exec (.par p lo hi) s = .next { s with
      responses := s.responses ++ [BitVec.ofNat 48 (setBits p lo.toNat hi.toNat % 2)] }) ∧
  (∀ (s : State) (p : Payload) (lo hi : Idx), hi.toNat < lo.toNat ∨ 32 < hi.toNat →
    exec (.par p lo hi) s = .next { s with responses := s.responses ++ [0x200000000000#48] }) ∧
  (∀ w : Word, slice w 47 44 = 3 →
    decode w = .ok (.par (BitVec.ofNat 32 (slice w 31 0)) (BitVec.ofNat 6 (slice w 37 32))
      (BitVec.ofNat 6 (slice w 43 38))))

/-- R61: with a descriptor loaded whose two ranges are valid, `RND` answers `OK` with `LEN = n + 2` and
`FRAME` the even-parity bit, the `n` binary digits of the payload and the odd-parity bit, and changes
nothing else; `n` is 1 for payload 0 (the spec's decision D15) and the bit length otherwise. Otherwise
it answers `NoFormat`, then `InvalidRange`; a word with a reserved bit set is answered
`IllegalCommand`. -/
def Obligations.RndReturnsFrame : Prop :=
  (∀ (s : State) (p : Payload) (n : Nat), s.block.fv = true → s.block.d.RangesOk →
    n = max 1 (Nat.size p.toNat) →
    ∃ r : Word, exec (.rnd p) s = .next { s with responses := s.responses ++ [r] } ∧
      rspStatus r = 0 ∧ r.extractLsb' 40 4 = 0 ∧
      (rspLen r).toNat = n + 2 ∧
      (rspFrame r).toNat =
        setBits p s.block.d.fcl.toNat s.block.d.fcu.toNat % 2 * 2 ^ (n + 1) + p.toNat * 2 +
          (1 - setBits p s.block.d.cnl.toNat s.block.d.cnu.toNat % 2)) ∧
  (∀ (s : State) (p : Payload), s.block.fv = false →
    exec (.rnd p) s = .next { s with responses := s.responses ++ [0x400000000000#48] }) ∧
  (∀ (s : State) (p : Payload), s.block.fv = true → ¬ s.block.d.RangesOk →
    exec (.rnd p) s = .next { s with responses := s.responses ++ [0x200000000000#48] }) ∧
  (∀ w : Word, slice w 47 44 = 4 → slice w 43 32 = 0 →
    decode w = .ok (.rnd (BitVec.ofNat 32 (slice w 31 0)))) ∧
  (∀ (s : State) (w : Word) (rest : List Event), s.inputs = .command w :: rest →
    slice w 47 44 = 4 → slice w 43 32 ≠ 0 →
      step s = .next ⟨s.block, rest, s.responses ++ [0x300000000000#48]⟩)

/-- R72: `DEC` and `RND` answer `NoFormat` exactly when `FV = 0`, that is when the events since reset hold
no `LDF` after the last `rst`. -/
def Obligations.NoFormatExactlyBeforeLoad : Prop :=
  (∀ (s : State) (p : Payload), ∃ r q : Word,
    exec (.dec p) s = .next { s with responses := s.responses ++ [r] } ∧
    exec (.rnd p) s = .next { s with responses := s.responses ++ [q] } ∧
    (r = 0x400000000000#48 ↔ s.block.fv = false) ∧ (q = 0x400000000000#48 ↔ s.block.fv = false)) ∧
  (∀ es : List Event, (runEvents Block.reset es).1.fv = false ↔ lastLoaded none es = none)

/-- R44: `DEC` and `RND` with a descriptor loaded answer `InvalidRange` exactly when one of its ranges
fails `lower ≤ upper ≤ 32`, `PAR` exactly when its own range does, whatever the payload; `LDF` checks
nothing. -/
def Obligations.InvalidRangeExactlyOnBadRange : Prop :=
  (∀ (s : State) (p : Payload), s.block.fv = true →
    ∃ r q : Word, exec (.dec p) s = .next { s with responses := s.responses ++ [r] } ∧
      exec (.rnd p) s = .next { s with responses := s.responses ++ [q] } ∧
      (r = 0x200000000000#48 ↔ ¬ s.block.d.RangesOk) ∧ (q = 0x200000000000#48 ↔ ¬ s.block.d.RangesOk)) ∧
  (∀ (s : State) (p : Payload) (lo hi : Idx), ∃ r : Word,
    exec (.par p lo hi) s = .next { s with responses := s.responses ++ [r] } ∧
      (r = 0x200000000000#48 ↔ ¬ (lo.toNat ≤ hi.toNat ∧ hi.toNat ≤ 32))) ∧
  (∀ (s : State) (pe po fcl fcu cnl cnu : Idx), ∃ t : State,
    exec (.ldf pe po fcl fcu cnl cnu) s = .next t ∧ t.responses = s.responses ++ [0x000000000000#48])

/-- R35, R73: the illegal words are those with an unassigned opcode or a reserved bit set; each is
answered `300000000000` whatever the state, and changes nothing else; every other word is the word of
one of the four commands. -/
def Obligations.IllegalWordsAreRejected : Prop :=
  (∀ (s : State) (w : Word) (rest : List Event), s.inputs = .command w :: rest →
    illegalWord w = true →
      step s = .next ⟨s.block, rest, s.responses ++ [0x300000000000#48]⟩) ∧
  (∀ w : Word, illegalWord w = false → ∃ i : Instr, decode w = .ok i ∧ encode i = w) ∧
  (∀ i : Instr, illegalWord (encode i) = false) ∧
  illegalWord 0 = true

/-- R76: one status is reported: `IllegalCommand` before `NoFormat` before `InvalidRange`. -/
def Obligations.ErrorPriority : Prop :=
  ∀ (s : State) (w : Word) (rest : List Event), s.inputs = .command w :: rest →
    ∃ (t : State) (r : Word), step s = .next t ∧ t.responses = s.responses ++ [r] ∧
      rspStatus r =
        if illegalWord w = true then 3
        else if (slice w 47 44 = 2 ∨ slice w 47 44 = 4) ∧ s.block.fv = false then 4
        else if ((slice w 47 44 = 2 ∨ slice w 47 44 = 4) ∧
              ¬ s.block.d.RangesOk) ∨
            (slice w 47 44 = 3 ∧ ¬ (slice w 37 32 ≤ slice w 43 38 ∧ slice w 43 38 ≤ 32)) then 2
        else 0

/-- R74: a command word answered with an error writes no state of the block, and its response is the
code in `rsp[47:44]` with zeros elsewhere. -/
def Obligations.ErrorsChangeNothing : Prop :=
  ∀ (s : State) (w : Word) (rest : List Event), s.inputs = .command w :: rest →
    ∃ (t : State) (r : Word), step s = .next t ∧ t.inputs = rest ∧
      t.responses = s.responses ++ [r] ∧
      (rspStatus r ≠ 0 → t.block = s.block ∧ r = rspStatus r ++ 0#44)

/-- R13: of all command words only an `LDF` writes the block; `DEC`, `PAR` and `RND` write nothing, and
sent a second time get the same response; an `LDF` replaces all six registers together. -/
def Obligations.OnlyLdfWritesBlock : Prop :=
  (∀ (s t : State) (w : Word) (rest : List Event), s.inputs = .command w :: rest →
    step s = .next t → t.block ≠ s.block →
      ∃ pe po fcl fcu cnl cnu, decode w = .ok (.ldf pe po fcl fcu cnl cnu) ∧
        t.block = ⟨⟨pe, po, fcl, fcu, cnl, cnu⟩, true⟩) ∧
  (∀ (s : State) (i : Instr), (∀ pe po fcl fcu cnl cnu, i ≠ .ldf pe po fcl fcu cnl cnu) →
    ∃ (t u : State) (r : Word), exec i s = .next t ∧ exec i t = .next u ∧
      t.block = s.block ∧ u.block = s.block ∧
      t.responses = s.responses ++ [r] ∧ u.responses = t.responses ++ [r])

/-- R51: no response to `DEC` depends on `D.PE` or `D.PO`; none is `InvalidParity`, the only failures being
`NoFormat` and `InvalidRange`; under a loaded descriptor with valid ranges every payload decodes. -/
def Obligations.DecIgnoresParity : Prop :=
  (∀ (s : State) (p : Payload) (pe po : Idx), ∃ r : Word,
    exec (.dec p) s = .next { s with responses := s.responses ++ [r] } ∧
    exec (.dec p) { s with block := ⟨{ s.block.d with pe := pe, po := po }, s.block.fv⟩ } =
      .next { s with block := ⟨{ s.block.d with pe := pe, po := po }, s.block.fv⟩,
                     responses := s.responses ++ [r] } ∧
    (rspStatus r = 0 ∨ rspStatus r = 4 ∨ rspStatus r = 2) ∧
    (s.block.fv = true → s.block.d.RangesOk → rspStatus r = 0))

/-- R85, for a `DEC`: an `LDF` of two valid ranges is in force for the `DEC` that follows it at once, which
answers the fields under the descriptor just loaded, whatever descriptor and `FV` stood before. -/
def Obligations.LdfGovernsNextDec : Prop :=
  ∀ (s : State) (pe po fcl fcu cnl cnu : Idx) (p : Payload) (rest : List Event),
    fcl.toNat ≤ fcu.toNat → fcu.toNat ≤ 32 → cnl.toNat ≤ cnu.toNat → cnu.toNat ≤ 32 →
    ∃ r : Word,
      Host.Core.run core 2 ⟨s.block,
          .command (encode (.ldf pe po fcl fcu cnl cnu)) :: .command (encode (.dec p)) :: rest, s.responses⟩ =
        .next ⟨⟨⟨pe, po, fcl, fcu, cnl, cnu⟩, true⟩, rest, s.responses ++ [0#48, r]⟩ ∧
      (rspFacilityCode r).toNat = p.toNat / 2 ^ fcl.toNat % 2 ^ (fcu.toNat - fcl.toNat) % 2 ^ 8 ∧
      (rspCardNumber r).toNat = p.toNat / 2 ^ cnl.toNat % 2 ^ (cnu.toNat - cnl.toNat) % 2 ^ 16

/-- R85, for a `RND`, and for both where a range is invalid: an `LDF` of two valid ranges is in force for the
`RND` that follows it at once, which answers `LEN` and `FRAME` under the descriptor just loaded,
whatever descriptor and `FV` stood before; after an `LDF` with an invalid range the `DEC` or `RND` that
follows at once answers `InvalidRange`. -/
def Obligations.LdfGovernsNextRnd : Prop :=
  (∀ (s : State) (pe po fcl fcu cnl cnu : Idx) (p : Payload) (n : Nat) (rest : List Event),
    (⟨pe, po, fcl, fcu, cnl, cnu⟩ : Descriptor).RangesOk → n = max 1 (Nat.size p.toNat) →
    ∃ r : Word,
      Host.Core.run core 2 ⟨s.block,
          .command (encode (.ldf pe po fcl fcu cnl cnu)) :: .command (encode (.rnd p)) :: rest, s.responses⟩ =
        .next ⟨⟨⟨pe, po, fcl, fcu, cnl, cnu⟩, true⟩, rest, s.responses ++ [0#48, r]⟩ ∧
      rspStatus r = 0 ∧ (rspLen r).toNat = n + 2 ∧
      (rspFrame r).toNat =
        setBits p fcl.toNat fcu.toNat % 2 * 2 ^ (n + 1) + p.toNat * 2 +
          (1 - setBits p cnl.toNat cnu.toNat % 2)) ∧
  (∀ (s : State) (pe po fcl fcu cnl cnu : Idx) (i : Instr) (p : Payload) (rest : List Event),
    ¬ (⟨pe, po, fcl, fcu, cnl, cnu⟩ : Descriptor).RangesOk → i = .dec p ∨ i = .rnd p →
      Host.Core.run core 2 ⟨s.block,
          .command (encode (.ldf pe po fcl fcu cnl cnu)) :: .command (encode i) :: rest, s.responses⟩ =
        .next ⟨⟨⟨pe, po, fcl, fcu, cnl, cnu⟩, true⟩, rest, s.responses ++ [0#48, 0x200000000000#48]⟩)

/-- R84: once a descriptor with valid ranges is loaded, a `DEC` or `RND` word keeps a fault-free run
fault-free. -/
def Obligations.LoadedValidFormatNeverFaults : Prop :=
  ∀ (s : State) (w : Word) (rest : List Event) (p : Payload), s.inputs = .command w :: rest →
    decode w = .ok (.dec p) ∨ decode w = .ok (.rnd p) →
    s.block.fv = true → s.block.d.RangesOk → FaultFree s →
    ∃ t : State, step s = .next t ∧ t.block = s.block ∧ t.inputs = rest ∧ FaultFree t ∧
      t.responses.length = s.responses.length + 1

/-- S1, S2: with the canonical descriptor in force, `DEC 5666862` answers `00000056782E`, and
`RND 5666862` answers `006400ACF05D`, text `0101011001111000001011101`. -/
def Obligations.CanonicalVector : Prop :=
  ∀ (ins : List Event) (rs : List Word),
    exec (.dec 5666862) ⟨⟨⟨0, 25, 16, 24, 0, 16⟩, true⟩, ins, rs⟩ =
      .next ⟨⟨⟨0, 25, 16, 24, 0, 16⟩, true⟩, ins, rs ++ [0x00000056782E#48]⟩ ∧
    exec (.rnd 5666862) ⟨⟨⟨0, 25, 16, 24, 0, 16⟩, true⟩, ins, rs⟩ =
      .next ⟨⟨⟨0, 25, 16, 24, 0, 16⟩, true⟩, ins, rs ++ [0x006400ACF05D#48]⟩ ∧
    text (rspFrame 0x006400ACF05D#48) (rspLen 0x006400ACF05D#48).toNat =
      ['0', '1', '0', '1', '0', '1', '1', '0', '0', '1', '1', '1', '1', '0', '0', '0', '0', '0', '1',
        '0', '1', '1', '1', '0', '1']

/-! ## Invariants every step keeps -/

/-- R36, R70, R75: the responses of the block stay legal: status 0, 2, 3 or 4, never `InvalidParity`,
`rsp[43:40] = 0`, and nothing beside the status in an error. -/
def Obligations.StepKeepsResponsesLegal : Prop :=
  ∀ s t : State, ResponsesLegal s → step s = .next t → ResponsesLegal t

/-- The legal-response invariant holds at reset. -/
def Obligations.ResetResponsesLegal : Prop := ResponsesLegal State.reset

/-- R11, R17: while `FV = 0` the descriptor registers keep their reset values. -/
def Obligations.StepKeepsUnloadedReset : Prop :=
  ∀ s t : State, UnloadedIsReset s → step s = .next t → UnloadedIsReset t

/-- That invariant holds at reset. -/
def Obligations.ResetIsUnloaded : Prop := UnloadedIsReset State.reset ∧ State.reset.block.fv = false

/-! ## Whole-machine statements -/

/-- R9, R38: one step of the machine on a command word is the block's transaction on it, as the
procedure of R38 gives it from the slices of the word. -/
def Obligations.StepIsTransaction : Prop :=
  ∀ (s : State) (w : Word) (rest : List Event), s.inputs = .command w :: rest →
    step s = .next ⟨(transact s.block w).1, rest, s.responses ++ [(transact s.block w).2]⟩

/-- R24, R89: for every finite sequence of events, the machine's steps are the run of the block over it:
each command sees the state left by the one before, and the responses come one for each command, in
order. -/
def Obligations.StepsAreRunOfEvents : Prop :=
  ∀ (es rest : List Event) (b : Block) (rs : List Word),
    Host.Core.run core es.length ⟨b, es ++ rest, rs⟩ =
      .next ⟨(runEvents b es).1, rest, rs ++ (runEvents b es).2⟩

/-- R11, R13, R17: after any events the block holds the descriptor of the last `LDF` since the last
`rst`, and `FV` says whether there is one; what there is is read from the events alone. -/
def Obligations.BlockHoldsLastLoaded : Prop :=
  ∀ (b : Block) (es : List Event), (runEvents b es).1.current = lastLoaded b.current es

/-- R17, R18: two blocks with the same `FV` and, where it is 1, the same ranges give the same responses
to every sequence of events: no response depends on `D.PE` or `D.PO`, nor on any register while
`FV = 0`. -/
def Obligations.ResponsesIgnoreParityPositions : Prop :=
  ∀ (a b : Block) (es : List Event), Block.SameFormat a b →
    (runEvents a es).2 = (runEvents b es).2 ∧ Block.SameFormat (runEvents a es).1 (runEvents b es).1

/-- R27: any sequence of command words without an `LDF` leaves the block as it was, and gives each word
the response it would get alone. -/
def Obligations.ReadersDoNotInterfere : Prop :=
  ∀ (b : Block) (es : List Event), (∀ e ∈ es, readsOnly e = true) →
    (runEvents b es).1 = b ∧ (runEvents b es).2 = es.flatMap (fun e => (runEvents b [e]).2)

/-! ## The functions the commands compute with -/

/-- R5: `v[hi:lo]` is the unsigned integer of `hi - lo + 1` bits whose bit `k` is `v[lo + k]`, and a bit at
or beyond the width is 0 (the spec's decision D14). -/
def Obligations.SliceReadsBits : Prop :=
  (∀ (v : Word) (hi lo : Nat), lo ≤ hi → slice v hi lo < 2 ^ (hi - lo + 1) ∧
    ∀ k, (slice v hi lo).testBit k = (decide (k ≤ hi - lo) && v.getLsbD (lo + k))) ∧
  (∀ (p : Payload) (i : Nat), bitAt p i = p.toNat / 2 ^ i % 2) ∧
  (∀ (p : Payload) (i : Nat), 32 ≤ i → bitAt p i = 0)

/-- R43: `valid_range(lower, upper)` is `lower ≤ upper ≤ 32`; 561 of the 4096 pairs of 6-bit values are
valid. -/
def Obligations.ValidRangeMeaning : Prop :=
  (∀ lower upper : Nat, validRange lower upper = true ↔ lower ≤ upper ∧ upper ≤ 32) ∧
  ((Finset.range 64 ×ˢ Finset.range 64).filter (fun q => validRange q.1 q.2 = true)).card = 561 ∧
  validRange 32 32 = true ∧ validRange 0 0 = true ∧ validRange 0 32 = true ∧
  validRange 10 5 = false ∧ validRange 0 33 = false ∧ validRange 40 50 = false

/-- R47: on a valid range `extract` is the payload shifted right by `lower`, modulo
`2 ^ (upper - lower)`; its bit `k` is payload bit `lower + k` below the width and 0 from there on; an
empty range gives 0 and the full range the payload; no command extracts from an invalid range. -/
def Obligations.ExtractReadsHalfOpenRange : Prop :=
  (∀ (p : Payload) (lower upper : Nat), lower ≤ upper → upper ≤ 32 →
    extract p lower upper = p.toNat / 2 ^ lower % 2 ^ (upper - lower) ∧
    ∀ k, (extract p lower upper).testBit k = (decide (k < upper - lower) && p.getLsbD (lower + k))) ∧
  (∀ (p : Payload) (k : Nat), k ≤ 32 → extract p k k = 0) ∧
  (∀ p : Payload, extract p 0 32 = p.toNat) ∧
  (∀ (s : State) (p : Payload), s.block.fv = true → ¬ s.block.d.RangesOk →
    exec (.dec p) s = .next { s with responses := s.responses ++ [0x200000000000#48] })

/-- R48: payloads that agree on bits `lower` to `upper - 1` have the same extracted value. -/
def Obligations.ExtractionIsLocal : Prop :=
  ∀ (p q : Payload) (lower upper : Nat), lower ≤ upper → upper ≤ 32 →
    (∀ i, lower ≤ i → i < upper → p.getLsbD i = q.getLsbD i) →
      extract p lower upper = extract q lower upper

/-- R50: with a facility range of at most 8 bits and a card range of at most 16, `DEC` loses no bit; a
wider range keeps the low 8 and 16 bits of it, payload bits `lower` to `lower + 7` and `lower + 15`,
and the response is `OK` all the same (the spec's decision D13). -/
def Obligations.NarrowingKeepsLowBits : Prop :=
  (∀ (s : State) (p : Payload), s.block.fv = true → s.block.d.RangesOk →
    ∃ r : Word, exec (.dec p) s = .next { s with responses := s.responses ++ [r] } ∧
      rspStatus r = 0 ∧
      (rspFacilityCode r).toNat = extract p s.block.d.fcl.toNat s.block.d.fcu.toNat % 256 ∧
      (s.block.d.fcu.toNat - s.block.d.fcl.toNat ≤ 8 →
        (rspFacilityCode r).toNat = extract p s.block.d.fcl.toNat s.block.d.fcu.toNat) ∧
      (8 < s.block.d.fcu.toNat - s.block.d.fcl.toNat →
        (rspFacilityCode r).toNat = extract p s.block.d.fcl.toNat (s.block.d.fcl.toNat + 8)) ∧
      (rspCardNumber r).toNat = extract p s.block.d.cnl.toNat s.block.d.cnu.toNat % 65536 ∧
      (s.block.d.cnu.toNat - s.block.d.cnl.toNat ≤ 16 →
        (rspCardNumber r).toNat = extract p s.block.d.cnl.toNat s.block.d.cnu.toNat) ∧
      (16 < s.block.d.cnu.toNat - s.block.d.cnl.toNat →
        (rspCardNumber r).toNat = extract p s.block.d.cnl.toNat (s.block.d.cnl.toNat + 16))) ∧
  extract 0xABCDE123 0 12 = 0x123 ∧ extract 0xABCDE123 0 32 = 0xABCDE123 ∧
  decResponse ⟨⟨0, 0, 0, 12, 0, 32⟩, true⟩ 0xABCDE123 = 0x00000023E123#48

/-- R54: `parity` is the number of set bits of the inclusive range modulo 2, 1 exactly when it is odd;
one position gives that bit, and one more position adds its bit by exclusive or; the range has
`upper - lower + 1` positions. -/
def Obligations.ParitySumsInclusiveRange : Prop :=
  (∀ (p : Payload) (lower upper : Nat), lower ≤ upper →
    parity p lower upper = setBits p lower upper % 2 ∧
    (parity p lower upper = 1 ↔ Odd (setBits p lower upper)) ∧
    (parity p lower upper = 0 ↔ Even (setBits p lower upper)) ∧
    parity p lower (upper + 1) = (parity p lower upper) ^^^ (p.getLsbD (upper + 1)).toNat ∧
    (Finset.Icc lower upper).card = upper - lower + 1) ∧
  (∀ (p : Payload) (k : Nat), parity p k k = (p.getLsbD k).toNat)

/-- R58 (the spec's decision D14): position 32 is no bit of the payload, adds nothing to a parity, and
alone has parity 0; no position above 32 is summed, since `PAR` and `RND` reject such a range. -/
def Obligations.ParityPosition32IsZero : Prop :=
  (∀ p : Payload, bitAt p 32 = 0) ∧
  (∀ (p : Payload) (lower : Nat), lower ≤ 31 → parity p lower 32 = parity p lower 31) ∧
  (∀ p : Payload, parity p 32 32 = 0) ∧
  (∀ (s : State) (p : Payload) (lo hi : Idx), 32 < hi.toNat →
    exec (.par p lo hi) s = .next { s with responses := s.responses ++ [0x200000000000#48] }) ∧
  (∀ (s : State) (p : Payload), s.block.fv = true →
    32 < s.block.d.fcu.toNat ∨ 32 < s.block.d.cnu.toNat →
      exec (.rnd p) s = .next { s with responses := s.responses ++ [0x200000000000#48] })

/-- R57: flipping a payload bit inside the inclusive range flips the parity, flipping one outside
leaves it. -/
def Obligations.ParityToggles : Prop :=
  ∀ (p : Payload) (lower upper k : Nat), lower ≤ upper → k ≤ 31 →
    parity (p ^^^ BitVec.twoPow 32 k) lower upper =
      if lower ≤ k ∧ k ≤ upper then 1 - parity p lower upper else parity p lower upper

/-- R55: the same pair is half-open to `extract` and inclusive to `parity`: flipping payload bit `upper`
changes the parity and leaves the extracted value. -/
def Obligations.UpperBitIsParityOnly : Prop :=
  ∀ (p : Payload) (lower upper : Nat), lower ≤ upper → upper ≤ 31 →
    parity (p ^^^ BitVec.twoPow 32 upper) lower upper ≠ parity p lower upper ∧
    extract (p ^^^ BitVec.twoPow 32 upper) lower upper = extract p lower upper

/-- R60 (payload 0 by the spec's decision D15): `nbw` is 1 for 0, and otherwise the position of the
highest set bit plus 1; it is 1 to 32. -/
def Obligations.NaturalBinaryWidth : Prop :=
  nbw 0 = 1 ∧
  (∀ p : Payload, p ≠ 0 → p.getLsbD (nbw p - 1) = true ∧ ∀ i, nbw p ≤ i → p.getLsbD i = false) ∧
  (∀ p : Payload, 1 ≤ nbw p ∧ nbw p ≤ 32) ∧
  nbw 1 = 1 ∧ nbw 2 = 2 ∧ nbw 3 = 2 ∧ nbw 0x56782E = 23 ∧ nbw 0x80000000 = 32 ∧ nbw 0xFFFFFFFF = 32

/-- R63: `POB = 1 - parity` of the card-number range, `PEB = parity` of the facility-code range; the set
bits of the inclusive card-number range and `POB` are odd in number, those of the inclusive
facility-code range and `PEB` even; `D.PE` and `D.PO` play no part. -/
def Obligations.ParityIndicators : Prop :=
  ∀ (d : Descriptor) (p : Payload), d.fcl.toNat ≤ d.fcu.toNat → d.cnl.toNat ≤ d.cnu.toNat →
    oddParityBit d p = 1 - parity p d.cnl.toNat d.cnu.toNat ∧
    evenParityBit d p = parity p d.fcl.toNat d.fcu.toNat ∧
    Odd (setBits p d.cnl.toNat d.cnu.toNat + oddParityBit d p) ∧
    Even (setBits p d.fcl.toNat d.fcu.toNat + evenParityBit d p) ∧
    ∀ pe po : Idx, oddParityBit { d with pe := pe, po := po } p = oddParityBit d p ∧
      evenParityBit { d with pe := pe, po := po } p = evenParityBit d p

/-- R62: `LEN = nbw + 2`; the bits of `FRAME`: the even-parity bit at `LEN - 1`, the payload at `LEN - 2`
down to 1, the odd-parity bit at 0, zeros from `LEN` on; the digit at `LEN - 2` is 1 for a payload
above 0; `FRAME` alone does not determine the text. -/
def Obligations.FrameLayout : Prop :=
  (∀ (d : Descriptor) (p : Payload),
    frameLen p = nbw p + 2 ∧
    (frame d p).testBit (frameLen p - 1) = decide (evenParityBit d p = 1) ∧
    (∀ i, 1 ≤ i → i ≤ frameLen p - 2 → (frame d p).testBit i = p.getLsbD (i - 1)) ∧
    (frame d p).testBit 0 = decide (oddParityBit d p = 1) ∧
    (∀ i, frameLen p ≤ i → (frame d p).testBit i = false) ∧
    (p ≠ 0 → (frame d p).testBit (frameLen p - 2) = true)) ∧
  (∃ (d e : Descriptor) (p q : Payload), d.RangesOk ∧ e.RangesOk ∧
    frame d p = frame e q ∧ frameLen p ≠ frameLen q)

/-- R66: of every successful `RND`, `LEN` is 3 to 34, `FRAME` is below `2 ^ LEN`, and the payload is
recovered from the response as `FRAME[LEN-2:1]`. -/
def Obligations.RenderedPayloadIsRecovered : Prop :=
  ∀ (s : State) (p : Payload), s.block.fv = true → s.block.d.RangesOk →
    ∃ r : Word, exec (.rnd p) s = .next { s with responses := s.responses ++ [r] } ∧
      3 ≤ (rspLen r).toNat ∧ (rspLen r).toNat ≤ 34 ∧
      (rspFrame r).toNat < 2 ^ (rspLen r).toNat ∧
      (rspFrame r).toNat / 2 % 2 ^ ((rspLen r).toNat - 2) = p.toNat

/-- R65, R66, R64: the text of a successful `RND` is the even-parity digit, then the binary digits of the
payload, the most significant first and with no padding, then the odd-parity digit, and nothing
else; payload 0 has the one digit `0` (the spec's decision D15). -/
def Obligations.RenderedTextIsDigitsInParity : Prop :=
  ∀ (s : State) (p : Payload), s.block.fv = true → s.block.d.RangesOk →
    ∃ r : Word, exec (.rnd p) s = .next { s with responses := s.responses ++ [r] } ∧
      text (rspFrame r) (rspLen r).toNat =
        digitChar (decide (Odd (setBits p s.block.d.fcl.toNat s.block.d.fcu.toNat))) ::
          ((if p = 0 then [false] else (Nat.bits p.toNat).reverse).map digitChar ++
            [digitChar (decide (Even (setBits p s.block.d.cnl.toNat s.block.d.cnu.toNat)))])

/-- R56, R63: the two parity bits of an `RND` response are what two `PAR` commands on the descriptor's
ranges answer, the card-number one inverted. -/
def Obligations.RndAgreesWithTwoPar : Prop :=
  ∀ (s : State) (p : Payload), s.block.fv = true → s.block.d.RangesOk →
    ∃ r e o : Word,
      exec (.rnd p) s = .next { s with responses := s.responses ++ [r] } ∧
      exec (.par p s.block.d.fcl s.block.d.fcu) s = .next { s with responses := s.responses ++ [e] } ∧
      exec (.par p s.block.d.cnl s.block.d.cnu) s = .next { s with responses := s.responses ++ [o] } ∧
      (rspFrame r).getLsbD ((rspLen r).toNat - 1) = (rspParity e).getLsbD 0 ∧
      (rspFrame r).getLsbD 0 = !(rspParity o).getLsbD 0

/-! ## Encoding -/

/-- R31 to R34: decoding the encoded word of any command gives it back, with every operand at every
value. -/
def Obligations.DecodeOfEncode : Prop := ∀ i : Instr, decode (encode i) = .ok i

/-- R34, R35: a word that decodes is the encoding of what it decodes to: no bit of it is dropped. -/
def Obligations.EncodeOfDecode : Prop :=
  ∀ (w : Word) (i : Instr), decode w = .ok i → encode i = w

/-- R34: the four rows with their match and mask; a word is the command of a row exactly when
`w and mask = match`; a word that matches no row is illegal; no two rows accept one word. -/
def Obligations.OpcodeRowsSelectCommand : Prop :=
  opcodeTable = [⟨"LDF", 0x100000000000#48, 0xFFF000000000#48⟩,
    ⟨"DEC", 0x200000000000#48, 0xFFFF00000000#48⟩, ⟨"PAR", 0x300000000000#48, 0xF00000000000#48⟩,
    ⟨"RND", 0x400000000000#48, 0xFFFF00000000#48⟩] ∧
  (∀ (w : Word) (r : OpcodeRow), r ∈ opcodeTable →
    (w &&& r.mask = r.pattern ↔ ∃ i, decode w = .ok i ∧ rowOf i = r)) ∧
  (∀ w : Word, (∀ r ∈ opcodeTable, w &&& r.mask ≠ r.pattern) → illegalWord w = true) ∧
  opcodeTable.Pairwise (fun q r => ∀ w : Word, ¬ (w &&& q.mask = q.pattern ∧ w &&& r.mask = r.pattern))

/-- R40, R41: the worked encodings decode to the commands they spell. -/
def Obligations.WorkedEncodingsDecode : Prop :=
  decode 0x100400610640#48 = .ok (.ldf 0 25 16 24 0 16) ∧
  decode 0x20000056782E#48 = .ok (.dec 5666862) ∧
  decode 0x34000056782E#48 = .ok (.par 5666862 0 16) ∧
  decode 0x36100056782E#48 = .ok (.par 5666862 16 24) ∧
  decode 0x40000056782E#48 = .ok (.rnd 5666862)

/-- R39, R40: a line of assembly gives a word exactly when every operand is in its range; the word is
never illegal and is the encoding of the command with those operands; every command is spelled by a
line; `LDF.STD` is `LDF 0, 25, 16, 24, 0, 16`, the word `100400610640`. -/
def Obligations.AssemblerEncodesLines : Prop :=
  (∀ a : AsmLine, (assemble a).isSome = a.wellFormed) ∧
  (∀ i : Instr, i.toAsm.wellFormed = true ∧ assemble i.toAsm = some (encode i)) ∧
  (∀ (a : AsmLine) (w : Word), assemble a = some w → illegalWord w = false ∧
    (a ≠ .ldfStd → ∃ i : Instr, i.toAsm = a ∧ encode i = w)) ∧
  assemble .ldfStd = assemble (.ldf 0 25 16 24 0 16) ∧ assemble .ldfStd = some 0x100400610640#48
end

