-- ==== Sys2Proof/Laws/Encoding.lean ====
section
/-! SUPPORT. The encoder's words as numbers, and the decoder read through the slices `w[hi:lo]` of
spec/00_scope.md rule R5. -/

namespace Sys2Proof.Machine

/-- A concatenation as a number. -/
theorem toNat_append_add {n m : Nat} (x : BitVec n) (y : BitVec m) :
    (x ++ y).toNat = x.toNat * 2 ^ m + y.toNat := by
  rw [BitVec.toNat_append, ← Nat.shiftLeft_add_eq_or_of_lt y.isLt, Nat.shiftLeft_eq]

theorem encode_ldf_toNat (pe po fcl fcu cnl cnu : Idx) :
    (encode (.ldf pe po fcl fcu cnl cnu)).toNat =
      2 ^ 44 + cnu.toNat * 2 ^ 30 + cnl.toNat * 2 ^ 24 + fcu.toNat * 2 ^ 18 + fcl.toNat * 2 ^ 12 +
        po.toNat * 2 ^ 6 + pe.toNat := by
  unfold encode
  rw [toNat_append_add, toNat_append_add, toNat_append_add, toNat_append_add, toNat_append_add,
    toNat_append_add, toNat_append_add]
  simp
  omega

theorem encode_dec_toNat (p : Payload) : (encode (.dec p)).toNat = 2 * 2 ^ 44 + p.toNat := by
  unfold encode
  rw [toNat_append_add, toNat_append_add]
  simp

theorem encode_par_toNat (p : Payload) (lo hi : Idx) :
    (encode (.par p lo hi)).toNat = 3 * 2 ^ 44 + hi.toNat * 2 ^ 38 + lo.toNat * 2 ^ 32 + p.toNat := by
  unfold encode
  rw [toNat_append_add, toNat_append_add, toNat_append_add]
  simp
  omega

theorem encode_rnd_toNat (p : Payload) : (encode (.rnd p)).toNat = 4 * 2 ^ 44 + p.toNat := by
  unfold encode
  rw [toNat_append_add, toNat_append_add]
  simp

/-- A field of a word, as a slice. -/
theorem extractLsb'_eq_slice (w : Word) (lo n : Nat) :
    w.extractLsb' lo (n + 1) = BitVec.ofNat (n + 1) (slice w (lo + n) lo) := by
  apply BitVec.eq_of_toNat_eq
  simp [slice, Nat.shiftRight_eq_div_pow]

/-- A field equals a constant exactly when the slice is that number. -/
theorem extractLsb'_eq_iff {n : Nat} (w : Word) (lo : Nat) (x : BitVec n) :
    w.extractLsb' lo n = x ↔ w.toNat / 2 ^ lo % 2 ^ n = x.toNat := by
  rw [← BitVec.toNat_inj, BitVec.extractLsb'_toNat, Nat.shiftRight_eq_div_pow]

/-- The decoder, said over the slices of rule R38. -/
theorem decode_eq_slices (w : Word) : decode w =
    if slice w 47 44 = 1 then
      if slice w 43 36 = 0 then
        .ok (.ldf (BitVec.ofNat 6 (slice w 5 0)) (BitVec.ofNat 6 (slice w 11 6))
          (BitVec.ofNat 6 (slice w 17 12)) (BitVec.ofNat 6 (slice w 23 18))
          (BitVec.ofNat 6 (slice w 29 24)) (BitVec.ofNat 6 (slice w 35 30)))
      else .error (.reservedBits (opcodeField w))
    else if slice w 47 44 = 2 then
      if slice w 43 32 = 0 then .ok (.dec (BitVec.ofNat 32 (slice w 31 0)))
      else .error (.reservedBits (opcodeField w))
    else if slice w 47 44 = 3 then
      .ok (.par (BitVec.ofNat 32 (slice w 31 0)) (BitVec.ofNat 6 (slice w 37 32))
        (BitVec.ofNat 6 (slice w 43 38)))
    else if slice w 47 44 = 4 then
      if slice w 43 32 = 0 then .ok (.rnd (BitVec.ofNat 32 (slice w 31 0)))
      else .error (.reservedBits (opcodeField w))
    else .error (.unassignedOpcode (opcodeField w)) := by
  have op : ∀ k : Nat, k < 16 → (opcodeField w = BitVec.ofNat 4 k ↔ slice w 47 44 = k) := by
    intro k hk
    rw [opcodeField, extractLsb'_eq_iff]
    simp [slice]
    omega
  have r8 : w.extractLsb' 36 8 = 0 ↔ slice w 43 36 = 0 := by rw [extractLsb'_eq_iff]; rfl
  have r12 : w.extractLsb' 32 12 = 0 ↔ slice w 43 32 = 0 := by rw [extractLsb'_eq_iff]; rfl
  unfold decode decodeFormatF decodeFormatP decodeFormatR
  simp only [op 1 (by decide), op 2 (by decide), op 3 (by decide), op 4 (by decide), r8, r12]
  simp only [extractLsb'_eq_slice]

/-- A mask of high bits keeps them and clears the rest. -/
theorem land_highMask {w m k n : Nat} (hw : w < 2 ^ n) (hm : (m + 1) * 2 ^ k = 2 ^ n) :
    w &&& (m <<< k) = (w >>> k) <<< k := by
  apply Nat.eq_of_testBit_eq
  intro i
  simp only [Nat.testBit_and, Nat.testBit_shiftLeft, Nat.testBit_shiftRight]
  by_cases hk : k ≤ i
  · simp only [hk, decide_true, Bool.true_and, Nat.add_sub_cancel' hk]
    by_cases hi : i < n
    · have hkn : k ≤ n := by omega
      have hm' : m = 2 ^ (n - k) - 1 := by
        have h : (m + 1) * 2 ^ k = 2 ^ (n - k) * 2 ^ k := by
          rw [hm, ← Nat.pow_add]; congr 1; omega
        have := Nat.eq_of_mul_eq_mul_right (Nat.two_pow_pos k) h
        omega
      rw [hm', Nat.testBit_two_pow_sub_one]
      simp
      omega
    · have hz := Nat.lt_of_lt_of_le hw (Nat.pow_le_pow_right (n := 2) (by decide) (by omega : n ≤ i))
      rw [Nat.testBit_lt_two_pow hz]
      simp
  · simp [hk]

/-- A word under a mask of its high bits, as a number. -/
theorem and_mask_iff (w : Word) (m k v : Nat) (hm : (m + 1) * 2 ^ k = 2 ^ 48) (hv : v < m + 1) :
    w &&& BitVec.ofNat 48 (m <<< k) = BitVec.ofNat 48 (v <<< k) ↔ w.toNat / 2 ^ k = v := by
  have below : ∀ x, x < m + 1 → x <<< k < 2 ^ 48 := fun x hx => by
    rw [Nat.shiftLeft_eq, ← hm]
    exact Nat.mul_lt_mul_of_pos_right hx (Nat.two_pow_pos k)
  rw [← BitVec.toNat_inj, BitVec.toNat_and, BitVec.toNat_ofNat, BitVec.toNat_ofNat,
    Nat.mod_eq_of_lt (below m (by omega)), Nat.mod_eq_of_lt (below v hv), land_highMask w.isLt hm,
    Nat.shiftLeft_eq, Nat.shiftLeft_eq, Nat.shiftRight_eq_div_pow]
  exact ⟨fun h => Nat.eq_of_mul_eq_mul_right (Nat.two_pow_pos k) h, fun h => by rw [h]⟩

theorem ldfRow_iff (w : Word) : w &&& ldfRow.mask = ldfRow.pattern ↔ w.toNat / 2 ^ 36 = 0x100 :=
  and_mask_iff w 0xFFF 36 0x100 (by decide) (by decide)

theorem decRow_iff (w : Word) : w &&& decRow.mask = decRow.pattern ↔ w.toNat / 2 ^ 32 = 0x2000 :=
  and_mask_iff w 0xFFFF 32 0x2000 (by decide) (by decide)

theorem parRow_iff (w : Word) : w &&& parRow.mask = parRow.pattern ↔ w.toNat / 2 ^ 44 = 0x3 :=
  and_mask_iff w 0xF 44 0x3 (by decide) (by decide)

theorem rndRow_iff (w : Word) : w &&& rndRow.mask = rndRow.pattern ↔ w.toNat / 2 ^ 32 = 0x4000 :=
  and_mask_iff w 0xFFFF 32 0x4000 (by decide) (by decide)

end Sys2Proof.Machine
end

