-- ==== Sys2Proof/Laws/Assembler.lean ====
section
/-! SUPPORT. The assembler's number for a line is the encoder's word. -/

namespace Sys2Proof.Machine

/-- A field above others is joined to them by a sum. -/
theorem mul_or_eq_add (a b k : Nat) (h : b < 2 ^ k) : (a * 2 ^ k) ||| b = a * 2 ^ k + b := by
  rw [← Nat.shiftLeft_eq, Nat.shiftLeft_add_eq_or_of_lt h]

/-- The formulas of rule R39 give the words of rules R31 to R33. -/
theorem asmNumber_toAsm (i : Instr) : asmNumber i.toAsm = (encode i).toNat := by
  cases i with
  | ldf pe po fcl fcu cnl cnu =>
    rw [encode_ldf_toNat]
    simp only [Instr.toAsm, asmNumber, Nat.shiftLeft_eq]
    have h1 := mul_or_eq_add po.toNat pe.toNat 6 pe.isLt
    have h2 := mul_or_eq_add fcl.toNat _ 12 (by omega : po.toNat * 2 ^ 6 + pe.toNat < 2 ^ 12)
    have h3 := mul_or_eq_add fcu.toNat _ 18
      (by omega : fcl.toNat * 2 ^ 12 + (po.toNat * 2 ^ 6 + pe.toNat) < 2 ^ 18)
    have h4 := mul_or_eq_add cnl.toNat _ 24
      (by omega : fcu.toNat * 2 ^ 18 + (fcl.toNat * 2 ^ 12 + (po.toNat * 2 ^ 6 + pe.toNat)) < 2 ^ 24)
    have h5 := mul_or_eq_add cnu.toNat _ 30
      (by omega : cnl.toNat * 2 ^ 24 +
        (fcu.toNat * 2 ^ 18 + (fcl.toNat * 2 ^ 12 + (po.toNat * 2 ^ 6 + pe.toNat))) < 2 ^ 30)
    have h6 := mul_or_eq_add 1 _ 44
      (by omega : cnu.toNat * 2 ^ 30 + (cnl.toNat * 2 ^ 24 +
        (fcu.toNat * 2 ^ 18 + (fcl.toNat * 2 ^ 12 + (po.toNat * 2 ^ 6 + pe.toNat)))) < 2 ^ 44)
    have order : 0x100000000000 ||| pe.toNat ||| po.toNat * 2 ^ 6 ||| fcl.toNat * 2 ^ 12 |||
        fcu.toNat * 2 ^ 18 ||| cnl.toNat * 2 ^ 24 ||| cnu.toNat * 2 ^ 30 =
        1 * 2 ^ 44 ||| (cnu.toNat * 2 ^ 30 ||| (cnl.toNat * 2 ^ 24 ||| (fcu.toNat * 2 ^ 18 |||
          (fcl.toNat * 2 ^ 12 ||| (po.toNat * 2 ^ 6 ||| pe.toNat))))) := by
      norm_num
      ac_rfl
    rw [order, h1, h2, h3, h4, h5, h6]
    omega
  | dec p =>
    rw [encode_dec_toNat]
    have h := mul_or_eq_add 0x2000 p.toNat 32 p.isLt
    simp only [Instr.toAsm, asmNumber]
    norm_num at h ⊢
    omega
  | par p lo hi =>
    rw [encode_par_toNat]
    simp only [Instr.toAsm, asmNumber, Nat.shiftLeft_eq]
    have h1 := mul_or_eq_add lo.toNat p.toNat 32 p.isLt
    have h2 := mul_or_eq_add hi.toNat _ 38 (by omega : lo.toNat * 2 ^ 32 + p.toNat < 2 ^ 38)
    have h3 := mul_or_eq_add 3 _ 44
      (by omega : hi.toNat * 2 ^ 38 + (lo.toNat * 2 ^ 32 + p.toNat) < 2 ^ 44)
    have order : 0x300000000000 ||| p.toNat ||| lo.toNat * 2 ^ 32 ||| hi.toNat * 2 ^ 38 =
        3 * 2 ^ 44 ||| (hi.toNat * 2 ^ 38 ||| (lo.toNat * 2 ^ 32 ||| p.toNat)) := by
      norm_num
      ac_rfl
    rw [order, h1, h2, h3]
    omega
  | rnd p =>
    rw [encode_rnd_toNat]
    have h := mul_or_eq_add 0x4000 p.toNat 32 p.isLt
    simp only [Instr.toAsm, asmNumber]
    norm_num at h ⊢
    omega

end Sys2Proof.Machine
end

