-- ==== Sys2Proof/Laws/Operands.lean ====
section
/-! SUPPORT. What the functions of Machine/Operands.lean compute: ranges, extraction, parity, natural
width and the rendered frame. -/

namespace Sys2Proof.Machine

theorem validRange_iff (lower upper : Nat) : validRange lower upper = true ↔ lower ≤ upper ∧ upper ≤ 32 := by
  rw [validRange, Bool.and_eq_true, decide_eq_true_eq, decide_eq_true_eq, Config.idxMax]

theorem Descriptor.valid_iff (d : Descriptor) : d.valid = true ↔ d.RangesOk := by
  simp [Descriptor.valid, validRange_iff]

theorem Descriptor.valid_eq_false_iff (d : Descriptor) : d.valid = false ↔ ¬ d.RangesOk := by
  rw [← Descriptor.valid_iff, Bool.not_eq_true]

theorem extract_eq (p : Payload) (lower upper : Nat) :
    extract p lower upper = p.toNat / 2 ^ lower % 2 ^ (upper - lower) := by
  rw [extract, Nat.shiftRight_eq_div_pow]

theorem testBit_extract (p : Payload) (lower upper k : Nat) :
    (extract p lower upper).testBit k = (decide (k < upper - lower) && p.getLsbD (lower + k)) := by
  simp [extract, Nat.testBit_mod_two_pow, Nat.testBit_shiftRight, BitVec.testBit_toNat]

theorem bitAt_le_one (p : Payload) (i : Nat) : bitAt p i ≤ 1 := Bool.toNat_le _

/-- The sum of the bits of an inclusive range is the number of positions set in it. -/
theorem sum_bitAt_eq_setBits (p : Payload) (lower n : Nat) :
    ((List.range' lower (n + 1)).map (bitAt p)).sum = setBits p lower (lower + n) := by
  induction n with
  | zero =>
    simp only [setBits, Nat.add_zero, Finset.Icc_self, Finset.filter_singleton]
    cases h : p.getLsbD lower <;> simp [bitAt, h]
  | succ n ih =>
    have hIcc : Finset.Icc lower (lower + (n + 1)) = insert (lower + (n + 1)) (Finset.Icc lower (lower + n)) := by
      ext i; simp; omega
    have hnot : lower + (n + 1) ∉ (Finset.Icc lower (lower + n)).filter (fun i => p.getLsbD i = true) := by
      simp
    rw [List.range'_concat, List.map_append, List.sum_append, ih]
    simp only [setBits, hIcc, Finset.filter_insert, bitAt, Nat.one_mul, List.map_cons, List.map_nil,
      List.sum_cons, List.sum_nil, Nat.add_zero]
    cases h : p.getLsbD (lower + (n + 1))
    · simp
    · simp [Finset.card_insert_of_notMem hnot]

/-- One more position adds its bit. -/
theorem setBits_succ (p : Payload) {lower upper : Nat} (h : lower ≤ upper) :
    setBits p lower (upper + 1) = setBits p lower upper + (p.getLsbD (upper + 1)).toNat := by
  obtain ⟨n, rfl⟩ := Nat.exists_eq_add_of_le h
  rw [← sum_bitAt_eq_setBits, show lower + n + 1 = lower + (n + 1) from rfl, ← sum_bitAt_eq_setBits,
    List.range'_concat]
  simp [bitAt]

/-- One position alone has its own bit. -/
theorem setBits_self (p : Payload) (k : Nat) : setBits p k k = (p.getLsbD k).toNat := by
  rw [show setBits p k k = setBits p k (k + 0) from rfl, ← sum_bitAt_eq_setBits]
  simp [bitAt]

theorem parity_eq_setBits (p : Payload) {lower upper : Nat} (h : lower ≤ upper) :
    parity p lower upper = setBits p lower upper % 2 := by
  rw [parity, sum_bitAt_eq_setBits, Nat.add_sub_cancel' h]

theorem parity_lt_two (p : Payload) (lower upper : Nat) : parity p lower upper < 2 :=
  Nat.mod_lt _ (by decide)

/-- The natural width as the size of the number, which counts no digit for 0. -/
theorem nbw_eq_size (p : Payload) : nbw p = max 1 (Nat.size p.toNat) := by
  unfold nbw
  split
  · next h => subst h; rfl
  · next h =>
    have h0 : p.toNat ≠ 0 := fun hz => h (BitVec.eq_of_toNat_eq (by simpa using hz))
    have h1 : 2 ^ Nat.log2 p.toNat ≤ p.toNat := Nat.log2_self_le h0
    have h2 : p.toNat < 2 ^ (Nat.log2 p.toNat + 1) := Nat.lt_log2_self
    have h3 : Nat.size p.toNat ≤ Nat.log2 p.toNat + 1 := Nat.size_le.2 h2
    have h4 : Nat.log2 p.toNat < Nat.size p.toNat := Nat.lt_size.2 h1
    omega

theorem one_le_nbw (p : Payload) : 1 ≤ nbw p := by rw [nbw_eq_size]; omega

theorem nbw_le (p : Payload) : nbw p ≤ 32 := by
  have h : Nat.size p.toNat ≤ 32 := Nat.size_le.2 p.isLt
  rw [nbw_eq_size]
  omega

theorem toNat_lt_two_pow_nbw (p : Payload) : p.toNat < 2 ^ nbw p := by
  rw [nbw_eq_size]
  exact Nat.size_le.1 (Nat.le_max_right _ _)

theorem evenParityBit_eq (d : Descriptor) (p : Payload) :
    evenParityBit d p = parity p d.fcl.toNat d.fcu.toNat := by
  have := parity_lt_two p d.fcl.toNat d.fcu.toNat
  unfold evenParityBit
  split <;> omega

theorem oddParityBit_eq (d : Descriptor) (p : Payload) :
    oddParityBit d p = 1 - parity p d.cnl.toNat d.cnu.toNat := by
  have := parity_lt_two p d.cnl.toNat d.cnu.toNat
  unfold oddParityBit
  split <;> omega

theorem evenParityBit_lt_two (d : Descriptor) (p : Payload) : evenParityBit d p < 2 := by
  rw [evenParityBit_eq]; exact parity_lt_two _ _ _

theorem oddParityBit_lt_two (d : Descriptor) (p : Payload) : oddParityBit d p < 2 := by
  rw [oddParityBit_eq]; omega

/-- The frame as a sum: its three parts share no bit. -/
theorem frame_eq (d : Descriptor) (p : Payload) :
    frame d p = evenParityBit d p * 2 ^ (nbw p + 1) + p.toNat * 2 + oddParityBit d p := by
  have hp := toNat_lt_two_pow_nbw p
  have ho := oddParityBit_lt_two d p
  have e1 : p.toNat <<< 1 ||| oddParityBit d p = p.toNat * 2 + oddParityBit d p := by
    rw [← Nat.shiftLeft_add_eq_or_of_lt (by simpa using ho), Nat.shiftLeft_eq, Nat.pow_one]
  have e2 : p.toNat * 2 + oddParityBit d p < 2 ^ (nbw p + 1) := by
    rw [Nat.pow_succ]; omega
  rw [frame, Nat.or_assoc, e1, ← Nat.shiftLeft_add_eq_or_of_lt e2, Nat.shiftLeft_eq, Nat.add_assoc]

theorem frame_lt (d : Descriptor) (p : Payload) : frame d p < 2 ^ frameLen p := by
  have hp := toNat_lt_two_pow_nbw p
  have ho := oddParityBit_lt_two d p
  have he := evenParityBit_lt_two d p
  have e1 : evenParityBit d p * 2 ^ (nbw p + 1) ≤ 1 * 2 ^ (nbw p + 1) :=
    Nat.mul_le_mul_right _ (by omega)
  have e2 : 2 ^ frameLen p = 2 * 2 ^ (nbw p + 1) := by
    rw [frameLen, show nbw p + 2 = (nbw p + 1) + 1 from rfl, Nat.pow_succ]; omega
  have e3 : 2 ^ (nbw p + 1) = 2 * 2 ^ nbw p := by rw [Nat.pow_succ]; omega
  rw [frame_eq, e2]
  omega

theorem frame_lt_container (d : Descriptor) (p : Payload) : frame d p < 2 ^ 34 :=
  Nat.lt_of_lt_of_le (frame_lt d p) (Nat.pow_le_pow_right (by decide) (by have := nbw_le p; unfold frameLen; omega))

theorem testBit_zero_of_lt_two {n : Nat} (h : n < 2) : n.testBit 0 = decide (n = 1) := by
  interval_cases n <;> decide

/-- Every bit of the frame. -/
theorem testBit_frame (d : Descriptor) (p : Payload) (i : Nat) : (frame d p).testBit i =
    if i = nbw p + 1 then decide (evenParityBit d p = 1)
    else if i = 0 then decide (oddParityBit d p = 1)
    else if i ≤ nbw p then p.getLsbD (i - 1)
    else false := by
  have he := evenParityBit_lt_two d p
  have ho := oddParityBit_lt_two d p
  have digits : ∀ j, nbw p ≤ j → p.toNat.testBit j = false := fun j hj =>
    Nat.testBit_lt_two_pow
      (Nat.lt_of_lt_of_le (toNat_lt_two_pow_nbw p) (Nat.pow_le_pow_right (by decide) hj))
  have single : ∀ n j, n < 2 → 1 ≤ j → n.testBit j = false := fun n j hn hj =>
    Nat.testBit_lt_two_pow
      (Nat.lt_of_lt_of_le hn (by simpa using Nat.pow_le_pow_right (n := 2) (by decide) hj))
  simp only [frame, Nat.testBit_or, Nat.testBit_shiftLeft, ← BitVec.testBit_toNat]
  by_cases h1 : i = nbw p + 1
  · subst h1
    simp [digits (nbw p) le_rfl, single _ (nbw p + 1) ho (by omega), testBit_zero_of_lt_two he]
  · by_cases h2 : i = 0
    · subst h2
      simp [testBit_zero_of_lt_two ho]
    · by_cases h3 : i ≤ nbw p
      · have : ¬ i ≥ nbw p + 1 := by omega
        simp [h1, h2, h3, this, single _ i ho (by omega)]
        omega
      · have : i ≥ nbw p + 1 := by omega
        simp [h1, h2, h3, single _ i ho (by omega), digits (i - 1) (by omega),
          single _ (i - (nbw p + 1)) he (by omega)]

end Sys2Proof.Machine
end

