-- ==== Sys2Proof/Laws/State.lean ====
section
/-! SUPPORT. What each operation over the state does to each field, so that no proof unfolds a record
update. -/

namespace Sys2Proof.Machine

@[simp] theorem State.respond_block (s : State) (r : Word) : (s.respond r).block = s.block := rfl
@[simp] theorem State.respond_inputs (s : State) (r : Word) : (s.respond r).inputs = s.inputs := rfl
@[simp] theorem State.respond_responses (s : State) (r : Word) :
    (s.respond r).responses = s.responses ++ [r] := rfl

@[simp] theorem State.raise_block (s : State) (k : Status) : (s.raise k).block = s.block := rfl
@[simp] theorem State.raise_inputs (s : State) (k : Status) : (s.raise k).inputs = s.inputs := rfl
@[simp] theorem State.raise_responses (s : State) (k : Status) :
    (s.raise k).responses = s.responses ++ [errorResponse k] := rfl

@[simp] theorem State.loadDescriptor_block (s : State) (d : Descriptor) :
    (s.loadDescriptor d).block = ⟨d, true⟩ := rfl
@[simp] theorem State.loadDescriptor_inputs (s : State) (d : Descriptor) :
    (s.loadDescriptor d).inputs = s.inputs := rfl
@[simp] theorem State.loadDescriptor_responses (s : State) (d : Descriptor) :
    (s.loadDescriptor d).responses = s.responses := rfl

@[simp] theorem State.applyReset_block (s : State) : s.applyReset.block = Block.reset := rfl
@[simp] theorem State.applyReset_inputs (s : State) : s.applyReset.inputs = s.inputs := rfl
@[simp] theorem State.applyReset_responses (s : State) : s.applyReset.responses = s.responses := rfl

@[simp] theorem State.present_block (s : State) (e : Event) : (s.present e).block = s.block := rfl
@[simp] theorem State.present_inputs (s : State) (e : Event) :
    (s.present e).inputs = e :: s.inputs := rfl
@[simp] theorem State.present_responses (s : State) (e : Event) :
    (s.present e).responses = s.responses := rfl

@[simp] theorem State.idle_eq (s : State) : s.idle = s := rfl

/-- The event presented last in front is the one taken, and taking it undoes the presenting. -/
@[simp] theorem State.takeEvent_present (s : State) (e : Event) :
    (s.present e).takeEvent = some (e, s) := rfl

theorem State.takeEvent_nil {s : State} (h : s.inputs = []) : s.takeEvent = none := by
  simp [State.takeEvent, h]

theorem State.takeEvent_cons {s : State} {e : Event} {rest : List Event} (h : s.inputs = e :: rest) :
    s.takeEvent = some (e, { s with inputs := rest }) := by
  simp [State.takeEvent, h]

end Sys2Proof.Machine
end

