-- ==== Sys2Proof/Laws/Flags.lean ====
section
/-! SUPPORT. What a response word holds, and everything the tests before a computation can do. -/

namespace Sys2Proof.Machine

/-- A field of a response word built from a number. -/
theorem toNat_field_ofNat (n lo len : Nat) :
    ((BitVec.ofNat 48 n).extractLsb' lo len).toNat = n % 2 ^ 48 / 2 ^ lo % 2 ^ len := by
  simp [Nat.shiftRight_eq_div_pow]

@[simp] theorem rspStatus_errorResponse (k : Status) : rspStatus (errorResponse k) = k.code := by
  cases k <;> decide

theorem errorResponse_eq_append (k : Status) : errorResponse k = k.code ++ 0#44 := by
  cases k <;> decide

theorem trunc_lt (n v : Nat) : trunc n v < 2 ^ n := Nat.mod_lt _ (Nat.two_pow_pos n)

theorem decOkResponse_toNat {fc cn : Nat} (hf : fc < 2 ^ 8) (hc : cn < 2 ^ 16) :
    (decOkResponse fc cn).toNat = fc * 2 ^ 16 + cn := by
  rw [decOkResponse, ← Nat.shiftLeft_add_eq_or_of_lt hc, Nat.shiftLeft_eq, BitVec.toNat_ofNat]
  omega

theorem rndOkResponse_toNat {len fr : Nat} (hl : len < 2 ^ 6) (hf : fr < 2 ^ 34) :
    (rndOkResponse len fr).toNat = len * 2 ^ 34 + fr := by
  rw [rndOkResponse, ← Nat.shiftLeft_add_eq_or_of_lt hf, Nat.shiftLeft_eq, BitVec.toNat_ofNat]
  omega

/-- A field of a word, as a number. -/
theorem toNat_field (r : Word) (lo len : Nat) :
    (r.extractLsb' lo len).toNat = r.toNat / 2 ^ lo % 2 ^ len := by
  rw [BitVec.extractLsb'_toNat, Nat.shiftRight_eq_div_pow]

/-- The three ends of a command that consumes the descriptor, in the order of rule R76. -/
theorem withDescriptor_cases (b : Block) (f : Descriptor → Word) :
    (b.fv = false ∧ withDescriptor b f = errorResponse .noFormat) ∨
    (b.fv = true ∧ ¬ b.d.RangesOk ∧ withDescriptor b f = errorResponse .invalidRange) ∨
    (b.fv = true ∧ b.d.RangesOk ∧ withDescriptor b f = f b.d) := by
  unfold withDescriptor
  cases hfv : b.fv
  · exact .inl ⟨rfl, by simp⟩
  · cases hv : b.d.valid
    · exact .inr (.inl ⟨rfl, b.d.valid_eq_false_iff.1 hv, by simp⟩)
    · exact .inr (.inr ⟨rfl, b.d.valid_iff.1 hv, by simp⟩)

theorem withDescriptor_noFormat {b : Block} (f : Descriptor → Word) (h : b.fv = false) :
    withDescriptor b f = errorResponse .noFormat := by simp [withDescriptor, h]

theorem withDescriptor_invalid {b : Block} (f : Descriptor → Word) (h : b.fv = true)
    (hr : ¬ b.d.RangesOk) : withDescriptor b f = errorResponse .invalidRange := by
  simp [withDescriptor, h, b.d.valid_eq_false_iff.2 hr]

theorem withDescriptor_ok {b : Block} (f : Descriptor → Word) (h : b.fv = true) (hr : b.d.RangesOk) :
    withDescriptor b f = f b.d := by
  simp [withDescriptor, h, b.d.valid_iff.2 hr]

theorem withRange_ok {lo hi : Nat} (r : Word) (h : lo ≤ hi ∧ hi ≤ 32) : withRange lo hi r = r := by
  simp [withRange, (validRange_iff lo hi).2 h]

theorem withRange_invalid {lo hi : Nat} (r : Word) (h : ¬ (lo ≤ hi ∧ hi ≤ 32)) :
    withRange lo hi r = errorResponse .invalidRange := by
  have hv : validRange lo hi = false := by
    rw [← Bool.not_eq_true, validRange_iff]; exact h
  simp [withRange, hv]

theorem facilityCode_lt (d : Descriptor) (p : Payload) : facilityCode d p < 2 ^ 8 := trunc_lt _ _

theorem cardNumber_lt (d : Descriptor) (p : Payload) : cardNumber d p < 2 ^ 16 := trunc_lt _ _

/-- The fields of a successful `DEC`. -/
theorem decOkResponse_fields (d : Descriptor) (p : Payload) :
    rspStatus (decOkResponse (facilityCode d p) (cardNumber d p)) = 0 ∧
    (rspFacilityCode (decOkResponse (facilityCode d p) (cardNumber d p))).toNat = facilityCode d p ∧
    (rspCardNumber (decOkResponse (facilityCode d p) (cardNumber d p))).toNat = cardNumber d p := by
  have hf := facilityCode_lt d p
  have hc := cardNumber_lt d p
  have h := decOkResponse_toNat hf hc
  refine ⟨BitVec.eq_of_toNat_eq ?_, ?_, ?_⟩
  · rw [rspStatus, toNat_field, h]; simp; omega
  · rw [rspFacilityCode, toNat_field, h]; omega
  · rw [rspCardNumber, toNat_field, h]; omega

/-- The fields of a successful `RND`. -/
theorem rndOkResponse_fields (d : Descriptor) (p : Payload) :
    rspStatus (rndOkResponse (frameLen p) (frame d p)) = 0 ∧
    (rndOkResponse (frameLen p) (frame d p)).extractLsb' 40 4 = 0 ∧
    (rspLen (rndOkResponse (frameLen p) (frame d p))).toNat = frameLen p ∧
    (rspFrame (rndOkResponse (frameLen p) (frame d p))).toNat = frame d p := by
  have hn := nbw_le p
  have hl : frameLen p ≤ 34 := by unfold frameLen; omega
  have hf := frame_lt_container d p
  have h := rndOkResponse_toNat (len := frameLen p) (by omega) hf
  refine ⟨BitVec.eq_of_toNat_eq ?_, BitVec.eq_of_toNat_eq ?_, ?_, ?_⟩
  · rw [rspStatus, toNat_field, h]; simp; omega
  · rw [toNat_field, h]; simp; omega
  · rw [rspLen, toNat_field, h]; omega
  · rw [rspFrame, toNat_field, h]; omega

end Sys2Proof.Machine
end

