-- ==== Sys2Proof/Laws/PerInstr.lean ====
section
/-! SUPPORT. The family RowMatch, one lemma for each constructor of Instr: the encoding of a command is
accepted by its own row of the opcode map and by no other (spec/30_encoding.md rule R34). -/

namespace Sys2Proof.Laws.RowMatch

open Sys2Proof.Machine

/-- Of the rows of the opcode map, exactly the command's own accepts its encoding. -/
def Statement (i : Instr) : Prop :=
  ∀ r ∈ opcodeTable, encode i &&& r.mask = r.pattern ↔ r = rowOf i

/-- The word's number decides, row by row. -/
theorem of_rows {i : Instr}
    (hl : (encode i).toNat / 2 ^ 36 = 0x100 ↔ ldfRow = rowOf i)
    (hd : (encode i).toNat / 2 ^ 32 = 0x2000 ↔ decRow = rowOf i)
    (hp : (encode i).toNat / 2 ^ 44 = 0x3 ↔ parRow = rowOf i)
    (hr : (encode i).toNat / 2 ^ 32 = 0x4000 ↔ rndRow = rowOf i) : Statement i := by
  intro r hm
  simp only [opcodeTable, List.mem_cons, List.not_mem_nil, or_false] at hm
  rcases hm with rfl | rfl | rfl | rfl
  · exact (ldfRow_iff _).trans hl
  · exact (decRow_iff _).trans hd
  · exact (parRow_iff _).trans hp
  · exact (rndRow_iff _).trans hr

theorem ldf (pe po fcl fcu cnl cnu : Idx) : Statement (.ldf pe po fcl fcu cnl cnu) := by
  have h := encode_ldf_toNat pe po fcl fcu cnl cnu
  exact of_rows (iff_of_true (by omega) rfl) (iff_of_false (by omega) (by simp [rowOf, ldfRow, decRow]))
    (iff_of_false (by omega) (by simp [rowOf, ldfRow, parRow]))
    (iff_of_false (by omega) (by simp [rowOf, ldfRow, rndRow]))

theorem dec (payload : Payload) : Statement (.dec payload) := by
  have h := encode_dec_toNat payload
  exact of_rows (iff_of_false (by omega) (by simp [rowOf, ldfRow, decRow])) (iff_of_true (by omega) rfl)
    (iff_of_false (by omega) (by simp [rowOf, decRow, parRow]))
    (iff_of_false (by omega) (by simp [rowOf, decRow, rndRow]))

theorem par (payload : Payload) (lo hi : Idx) : Statement (.par payload lo hi) := by
  have h := encode_par_toNat payload lo hi
  exact of_rows (iff_of_false (by omega) (by simp [rowOf, ldfRow, parRow]))
    (iff_of_false (by omega) (by simp [rowOf, decRow, parRow])) (iff_of_true (by omega) rfl)
    (iff_of_false (by omega) (by simp [rowOf, parRow, rndRow]))

theorem rnd (payload : Payload) : Statement (.rnd payload) := by
  have h := encode_rnd_toNat payload
  exact of_rows (iff_of_false (by omega) (by simp [rowOf, ldfRow, rndRow]))
    (iff_of_false (by omega) (by simp [rowOf, decRow, rndRow]))
    (iff_of_false (by omega) (by simp [rowOf, parRow, rndRow])) (iff_of_true (by omega) rfl)

end Sys2Proof.Laws.RowMatch
end

