-- ==== Sys2Proof/Laws/Step.lean ====
section
/-! SUPPORT. Everything a command and a step can do, said once. -/

namespace Sys2Proof.Machine

/-- The response of the block to a command. -/
def responseTo (b : Block) : Instr → Word
  | .ldf _ _ _ _ _ _ => ldfResponse
  | .dec p => decResponse b p
  | .par p lo hi => parResponse p lo hi
  | .rnd p => rndResponse b p

/-- The block after a command. -/
def blockAfter (b : Block) : Instr → Block
  | .ldf pe po fcl fcu cnl cnu => ⟨⟨pe, po, fcl, fcu, cnl, cnu⟩, true⟩
  | .dec _ => b
  | .par _ _ _ => b
  | .rnd _ => b

/-- Every command answers a next state with one response more. -/
theorem exec_eq (i : Instr) (s : State) :
    exec i s = .next ⟨blockAfter s.block i, s.inputs, s.responses ++ [responseTo s.block i]⟩ := by
  cases i <;> rfl

theorem step_idle {s : State} (h : s.inputs = []) : step s = .next s := by
  simp [step, State.takeEvent_nil h]

theorem step_rst {s : State} {rest : List Event} (h : s.inputs = .rst :: rest) :
    step s = .next ⟨Block.reset, rest, s.responses⟩ := by
  simp [step, State.takeEvent_cons h, State.applyReset]

theorem step_command {s : State} {w : Word} {rest : List Event} {i : Instr}
    (h : s.inputs = .command w :: rest) (hd : decode w = .ok i) :
    step s = .next ⟨blockAfter s.block i, rest, s.responses ++ [responseTo s.block i]⟩ := by
  simp [step, State.takeEvent_cons h, hd, exec_eq]

theorem step_illegal {s : State} {w : Word} {rest : List Event} {e : DecodeError}
    (h : s.inputs = .command w :: rest) (hd : decode w = .error e) :
    step s = .next ⟨s.block, rest, s.responses ++ [errorResponse .illegalCommand]⟩ := by
  simp [step, State.takeEvent_cons h, hd, State.raise, State.respond]

/-- What a step can do: idle, reset, run a command, or reject a word. -/
theorem step_cases {s t : State} (h : step s = .next t) :
    (s.inputs = [] ∧ t = s) ∨
    (∃ rest, s.inputs = .rst :: rest ∧ t = ⟨Block.reset, rest, s.responses⟩) ∨
    (∃ w rest i, s.inputs = .command w :: rest ∧ decode w = .ok i ∧
      t = ⟨blockAfter s.block i, rest, s.responses ++ [responseTo s.block i]⟩) ∨
    (∃ w rest e, s.inputs = .command w :: rest ∧ decode w = .error e ∧
      t = ⟨s.block, rest, s.responses ++ [errorResponse .illegalCommand]⟩) := by
  cases hi : s.inputs with
  | nil => rw [step_idle hi] at h; cases h; exact .inl ⟨rfl, rfl⟩
  | cons e rest =>
    cases e with
    | rst => rw [step_rst hi] at h; cases h; exact .inr (.inl ⟨rest, rfl, rfl⟩)
    | command w =>
      cases hd : decode w with
      | ok i =>
        rw [step_command hi hd] at h; cases h
        exact .inr (.inr (.inl ⟨w, rest, i, rfl, hd, rfl⟩))
      | error e =>
        rw [step_illegal hi hd] at h; cases h
        exact .inr (.inr (.inr ⟨w, rest, e, rfl, hd, rfl⟩))

/-- The block's transaction on a word that decodes. -/
theorem transact_of_decode {w : Word} {i : Instr} (b : Block) (h : decode w = .ok i) :
    transact b w = (blockAfter b i, responseTo b i) := by
  rw [decode_eq_slices] at h
  unfold transact
  simp only [ne_eq, ite_not]
  split_ifs at h ⊢ <;> (cases h; rfl)

/-- The block's transaction on a word that does not decode. -/
theorem transact_of_error {w : Word} {e : DecodeError} (b : Block) (h : decode w = .error e) :
    transact b w = (b, errorResponse .illegalCommand) := by
  rw [decode_eq_slices] at h
  unfold transact
  simp only [ne_eq, ite_not]
  split_ifs at h ⊢ <;> rfl

/-- The illegal words are those that do not decode. -/
theorem illegalWord_iff (w : Word) : illegalWord w = true ↔ ∃ e, decode w = .error e := by
  rw [decode_eq_slices]
  simp only [illegalWord, Bool.or_eq_true, decide_eq_true_eq]
  have : slice w 47 44 < 16 := Nat.mod_lt _ (by decide)
  split_ifs <;> simp <;> omega

end Sys2Proof.Machine
end

