-- ==== Sys2Proof/Tests/Slice0.lean ====
section
/-! SUPPORT. Tests. Every expected result is a vector of spec/95_test_vectors.md, a worked encoding of
spec/30_encoding.md rule R41, or written by hand from the rule named. After them, one witness for each
hypothesis of the statements in Certificates/Slice0/Obligations.lean. -/

namespace Sys2Proof.Tests

open Sys2Proof.Machine

/-- The canonical descriptor (spec/40_descriptor.md rule R46). -/
def canonical : Descriptor := ⟨0, 25, 16, 24, 0, 16⟩
/-- The descriptor of S5, `facility_code = (10, 5)`. -/
def inverted : Descriptor := ⟨0, 25, 10, 5, 0, 16⟩
/-- Both ranges at the edge of validity, `(32, 32)` and `(0, 32)`. -/
def edge : Descriptor := ⟨63, 63, 32, 32, 0, 32⟩
/-- A machine with the descriptor loaded and the events presented. -/
def loaded (d : Descriptor) (ins : List Event) : State := ⟨⟨d, true⟩, ins, []⟩
/-- A machine as after reset with the events presented. -/
def fresh (ins : List Event) : State := ⟨Block.reset, ins, []⟩

/-- The next state's block. -/
def nextBlock : Host.Outcome State Fault Refusal → Option Block
  | .next t => some t.block
  | _ => none
/-- The next state's responses. -/
def nextResponses : Host.Outcome State Fault Refusal → Option (List Word)
  | .next t => some t.responses
  | _ => none
/-- The next state's events not yet taken. -/
def nextInputs : Host.Outcome State Fault Refusal → Option (List Event)
  | .next t => some t.inputs
  | _ => none

/-! ## The widths of rule R4 -/

theorem test_widths : Payload = BitVec Config.payloadW ∧ FacilityCode = BitVec Config.fcW ∧
    CardNumber = BitVec Config.cnW ∧ Idx = BitVec Config.idxW ∧ Word = BitVec Config.cmdW ∧
    Word = BitVec Config.rspW ∧ Frame = BitVec Config.frameW ∧
    Config.opW + 8 + 6 * Config.idxW = Config.cmdW ∧ Config.stW + 4 + Config.lenW + Config.frameW = Config.rspW :=
  ⟨rfl, rfl, rfl, rfl, rfl, rfl, rfl, rfl, rfl⟩

/-! ## Well-formedness: an ill-formed line for each check (rule R39) -/

theorem test_wf_ldf : (AsmLine.ldf 63 63 63 63 63 63).wellFormed = true ∧
    (AsmLine.ldf 64 0 0 0 0 0).wellFormed = false ∧ (AsmLine.ldf 0 64 0 0 0 0).wellFormed = false ∧
    (AsmLine.ldf 0 0 64 0 0 0).wellFormed = false ∧ (AsmLine.ldf 0 0 0 64 0 0).wellFormed = false ∧
    (AsmLine.ldf 0 0 0 0 64 0).wellFormed = false ∧ (AsmLine.ldf 0 0 0 0 0 64).wellFormed = false := by decide

theorem test_wf_payload : (AsmLine.dec 4294967295).wellFormed = true ∧
    (AsmLine.dec 4294967296).wellFormed = false ∧ (AsmLine.rnd 4294967296).wellFormed = false := by decide

theorem test_wf_par : (AsmLine.par 0 63 63).wellFormed = true ∧
    (AsmLine.par 4294967296 0 0).wellFormed = false ∧ (AsmLine.par 0 64 0).wellFormed = false ∧
    (AsmLine.par 0 0 64).wellFormed = false := by decide

/-! ## Decoding: words written out from rules R31 to R34, fields from bit 47 down -/

/-- `LDF 1, 2, 3, 4, 5, 6`: OP, RSV, CNU = 6, CNL = 5, FCU = 4, FCL = 3, PO = 2, PE = 1. -/
theorem test_decode_ldf :
    decode (0b000100000000000110000101000100000011000010000001 : BitVec 48) = .ok (.ldf 1 2 3 4 5 6) := by decide

/-- `LDF 0, 25, 16, 24, 0, 16`, the binary word of rule R41. -/
theorem test_decode_ldfStd :
    decode (0b000100000000010000000000011000010000011001000000 : BitVec 48) = .ok (.ldf 0 25 16 24 0 16) := by decide

/-- `DEC 5666862`: OP = 2, RSV = 0, PAYLOAD = 0x0056782E (rule R41). -/
theorem test_decode_dec :
    decode (0b001000000000000000000000010101100111100000101110 : BitVec 48) = .ok (.dec 5666862) := by decide

/-- `PAR 5666862, 16, 24`: OP = 3, HI = 24, LO = 16 (rule R41). -/
theorem test_decode_par :
    decode (0b001101100001000000000000010101100111100000101110 : BitVec 48) = .ok (.par 5666862 16 24) := by decide

/-- `RND 5666862`: OP = 4 (rule R41). -/
theorem test_decode_rnd :
    decode (0b010000000000000000000000010101100111100000101110 : BitVec 48) = .ok (.rnd 5666862) := by decide

/-- Illegal words of table 2.1: all zeros, OP 5, 6 and 15, and one reserved bit set at each end. -/
theorem test_decode_illegal :
    decode 0x000000000000#48 = .error (.unassignedOpcode 0) ∧
    decode 0x50000056782E#48 = .error (.unassignedOpcode 5) ∧
    decode 0x600000000000#48 = .error (.unassignedOpcode 6) ∧
    decode 0xFFFFFFFFFFFF#48 = .error (.unassignedOpcode 15) ∧
    decode 0x101400610640#48 = .error (.reservedBits 1) ∧
    decode 0x180400610640#48 = .error (.reservedBits 1) ∧
    decode 0x20010056782E#48 = .error (.reservedBits 2) ∧
    decode 0x28000056782E#48 = .error (.reservedBits 2) ∧
    decode 0x41000056782E#48 = .error (.reservedBits 4) := by decide

/-! ## Assembly (rules R39 to R41) -/

theorem test_assemble : assemble (.ldf 1 2 3 4 5 6) = some 0x100185103081#48 ∧
    assemble .ldfStd = some 0x100400610640#48 ∧ assemble (.par 5666862 16 24) = some 0x36100056782E#48 ∧
    assemble (.ldf 0 0 0 0 0 64) = none := by decide

theorem test_read_par : readLine ['P', 'A', 'R', ' ', '0', 'x', '5', '6', '7', '8', '2', 'E', ',', ' ',
    '1', '6', ',', ' ', '2', '4', ' ', ';', ' ', 'P'] = some (.par 5666862 16 24) := by decide

theorem test_read_ldfStd : readLine ['L', 'D', 'F', '.', 'S', 'T', 'D'] = some .ldfStd ∧
    readLine ['D', 'E', 'C'] = none ∧ readLine [';', 'D', 'E', 'C', ' ', '1'] = none := by decide

/-! ## One step of each command, from spec/95_test_vectors.md section 2 -/

/-- Table 2.1, first row. -/
theorem test_ldf_loads : nextBlock (step (fresh [.command 0x100400610640#48])) = some ⟨canonical, true⟩ ∧
    nextResponses (step (fresh [.command 0x100400610640#48])) = some [0#48] := by decide

/-- Table 2.1: `cmd[43] = 1`, `FV` stays 0. -/
theorem test_ldf_reserved : nextBlock (step (fresh [.command 0x180400610640#48])) = some Block.reset ∧
    nextResponses (step (fresh [.command 0x180400610640#48])) = some [0x300000000000#48] := by decide

/-- Table 2.2: both fields truncated. -/
theorem test_dec_truncates : nextResponses (step (loaded ⟨0, 0, 0, 12, 0, 32⟩ [.command 0x2000ABCDE123#48])) =
    some [0x00000023E123#48] := by decide

/-- Table 2.2: fields in the other order. -/
theorem test_dec_order : nextResponses (step (loaded ⟨0, 0, 1, 9, 9, 25⟩ [.command 0x200002ACF05D#48])) =
    some [0x0000002E5678#48] := by decide

/-- Table 2.3: bit 31 alone counts in the range 31 to 32. -/
theorem test_par_edge : nextResponses (step (fresh [.command 0x381FFFFFFFFF#48])) = some [1#48] := by decide

/-- Table 2.3: 24 positions of `0xDEADBEEF`. -/
theorem test_par_middle : nextResponses (step (fresh [.command 0x36C4DEADBEEF#48])) = some [1#48] := by decide

/-- Table 2.4: both parity bits change with bit 16. -/
theorem test_rnd_bit16 : nextResponses (step (loaded canonical [.command 0x400000010000#48])) =
    some [0x004C00060000#48] := by decide +kernel

/-- Table 2.4: the widest frame, under overlapping wide ranges. -/
theorem test_rnd_wide : nextResponses (step (loaded ⟨0, 0, 0, 12, 0, 32⟩ [.command 0x4000ABCDE123#48])) =
    some [0x0089579BC246#48] := by decide +kernel

/-- Rule R76: an illegal `DEC` word before any load is `IllegalCommand`; `rst` gives no response. -/
theorem test_priority_and_rst :
    nextResponses (step (fresh [.command 0x28000056782E#48])) = some [0x300000000000#48] ∧
    nextBlock (step (loaded canonical [.rst])) = some Block.reset ∧
    nextResponses (step (loaded canonical [.rst])) = some [] := by decide

/-! ## Witnesses: the hypotheses of the statements can be met -/

theorem witness_ResetClearsBlock : (loaded canonical [.rst, .command 0]).inputs = .rst :: [.command 0] := by decide

theorem witness_StepRunsDecodedCommand :
    (loaded canonical [.command 0x20000056782E#48]).inputs = .command 0x20000056782E#48 :: [] ∧
      decode 0x20000056782E#48 = .ok (.dec 5666862) := by decide

theorem witness_PresentedWordRunsNext :
    decodeTableWord 48 0x34000056782E = some (.par 5666862 0 16) := by decide

theorem witness_IdleStepKeepsState : (loaded canonical []).inputs = [] := by decide

theorem witness_OnlyResetReturnsToReset_readers :
    ∀ e ∈ [Event.command 0x20000056782E#48, .command 0#48], readsOnly e = true := by decide

theorem witness_OnlyResetReturnsToReset_rst : ∃ t, step (loaded canonical [.rst]) = .next t ∧
    (loaded canonical [.rst]).block.fv = true ∧ t.block.fv = false ∧
    (loaded canonical [.rst]).block ≠ Block.reset ∧ t.block = Block.reset :=
  ⟨_, step_rst rfl, by decide, by decide, by decide, by decide⟩

theorem witness_LdfLoadsDescriptor_words :
    slice 0x100400610640#48 47 44 = 1 ∧ slice 0x100400610640#48 43 36 = 0 ∧
    slice 0x101400610640#48 47 44 = 1 ∧ slice 0x101400610640#48 43 36 ≠ 0 ∧
    (fresh [.command 0x101400610640#48]).inputs = .command 0x101400610640#48 :: [] := by decide

theorem witness_LdfLoadsDescriptor_badRange : ¬ inverted.RangesOk ∧
    ∃ t, exec (.ldf 0 25 10 5 0 16) (fresh []) = .next t := ⟨by decide, _, exec_eq _ _⟩

/-- For the statements on `DEC` and `RND` under a loaded valid descriptor: the canonical one, and one
with both ranges at the edge. -/
theorem witness_loadedValid : (loaded canonical []).block.fv = true ∧ (loaded canonical []).block.d.RangesOk ∧
    (loaded edge []).block.fv = true ∧ (loaded edge []).block.d.RangesOk := by decide

theorem witness_unloaded : (fresh []).block.fv = false := by decide

/-- For the statements on `InvalidRange`: each way to fail, just past the edge. -/
theorem witness_loadedInvalid : (loaded inverted []).block.fv = true ∧ ¬ (loaded inverted []).block.d.RangesOk ∧
    ¬ (loaded ⟨0, 0, 16, 24, 0, 33⟩ []).block.d.RangesOk ∧ ¬ (loaded ⟨0, 0, 33, 33, 0, 16⟩ []).block.d.RangesOk ∧
    ¬ (loaded ⟨0, 0, 16, 24, 1, 0⟩ []).block.d.RangesOk := by decide

theorem witness_DecReturnsFields_words :
    slice 0x20000056782E#48 47 44 = 2 ∧ slice 0x20000056782E#48 43 32 = 0 ∧
    slice 0x20010056782E#48 47 44 = 2 ∧ slice 0x20010056782E#48 43 32 ≠ 0 ∧
    (fresh [.command 0x20010056782E#48]).inputs = .command 0x20010056782E#48 :: [] := by decide

theorem witness_ParReturnsParity_valid : (32#6).toNat ≤ (32#6).toNat ∧ (32#6).toNat ≤ 32 ∧
    (0#6).toNat ≤ (0#6).toNat ∧ (0#6).toNat ≤ 32 := by decide

theorem witness_ParReturnsParity_invalid : (0#6).toNat < (1#6).toNat ∧ 32 < (33#6).toNat ∧
    slice 0x34000056782E#48 47 44 = 3 := by decide

theorem witness_RndReturnsFrame_words :
    slice 0x40000056782E#48 47 44 = 4 ∧ slice 0x40000056782E#48 43 32 = 0 ∧
    slice 0x41000056782E#48 47 44 = 4 ∧ slice 0x41000056782E#48 43 32 ≠ 0 ∧
    (fresh [.command 0x41000056782E#48]).inputs = .command 0x41000056782E#48 :: [] := by decide

theorem witness_RndReturnsFrame_digits : (1 : Nat) = max 1 (Nat.size (0#32).toNat) ∧
    (2 : Nat) = max 1 (Nat.size (3#32).toNat) := by decide

theorem witness_IllegalWordsAreRejected : illegalWord 0x50000056782E#48 = true ∧
    (loaded canonical [.command 0x50000056782E#48]).inputs = .command 0x50000056782E#48 :: [] ∧
    illegalWord 0x20000056782E#48 = false := by decide

theorem witness_ErrorPriority :
    (fresh [.command 0x20000056782E#48]).inputs = .command 0x20000056782E#48 :: [] := by decide

/-- Each branch of the priority: illegal, no format, invalid range of the descriptor and of `PAR`. -/
theorem witness_ErrorPriority_branches :
    nextResponses (step (fresh [.command 0x28000056782E#48])) = some [0x300000000000#48] ∧
    nextResponses (step (fresh [.command 0x20000056782E#48])) = some [0x400000000000#48] ∧
    nextResponses (step (loaded inverted [.command 0x40000056782E#48])) = some [0x200000000000#48] ∧
    nextResponses (step (fresh [.command 0x38400056782E#48])) = some [0x200000000000#48] ∧
    nextResponses (step (loaded canonical [.command 0x20000056782E#48])) = some [0x00000056782E#48] := by decide

theorem witness_ErrorsChangeNothing :
    (loaded inverted [.command 0x20000056782E#48]).inputs = .command 0x20000056782E#48 :: [] ∧
    rspStatus 0x200000000000#48 ≠ 0 := by decide

theorem witness_OnlyLdfWritesBlock_write : ∃ t,
    step (fresh [.command (encode (.ldf 0 25 16 24 0 16))]) = .next t ∧
      t.block ≠ (fresh [.command (encode (.ldf 0 25 16 24 0 16))]).block :=
  ⟨_, step_command (i := .ldf 0 25 16 24 0 16) rfl (by decide), by decide⟩

theorem witness_OnlyLdfWritesBlock_read :
    ∀ pe po fcl fcu cnl cnu, Instr.rnd 5666862 ≠ .ldf pe po fcl fcu cnl cnu := by simp

theorem witness_LdfGovernsNextDec : (16#6).toNat ≤ (24#6).toNat ∧ (24#6).toNat ≤ 32 ∧
    (0#6).toNat ≤ (32#6).toNat ∧ (32#6).toNat ≤ 32 := by decide

theorem witness_LdfGovernsNextRnd : (⟨63, 63, 32, 32, 0, 32⟩ : Descriptor).RangesOk ∧
    (1 : Nat) = max 1 (Nat.size (0#32).toNat) ∧ ¬ (⟨0, 25, 16, 24, 0, 33⟩ : Descriptor).RangesOk ∧
    (Instr.dec 1 = .dec 1 ∨ Instr.dec 1 = .rnd 1) ∧ (Instr.rnd 1 = .dec 1 ∨ Instr.rnd 1 = .rnd 1) := by decide

theorem witness_LoadedValidFormatNeverFaults :
    (⟨⟨canonical, true⟩, [.command 0x20000056782E#48], [0#48]⟩ : State).inputs = .command 0x20000056782E#48 :: [] ∧
    decode 0x20000056782E#48 = .ok (.dec 5666862) ∧ decode 0x40000056782E#48 = .ok (.rnd 5666862) ∧
    canonical.RangesOk ∧ FaultFree ⟨⟨canonical, true⟩, [.command 0x20000056782E#48], [0#48]⟩ := by
  refine ⟨rfl, by decide, by decide, by decide, ?_⟩
  intro r hr
  rw [List.mem_singleton.1 hr]
  decide

theorem witness_StepKeepsResponsesLegal : ∃ t,
    ResponsesLegal ⟨⟨inverted, true⟩, [.command 0x20000056782E#48], [0x300000000000#48]⟩ ∧
    step ⟨⟨inverted, true⟩, [.command 0x20000056782E#48], [0x300000000000#48]⟩ = .next t := by
  refine ⟨_, ?_, step_command (i := .dec 5666862) rfl (by decide)⟩
  intro r hr
  rw [List.mem_singleton.1 hr]
  unfold LegalResponse
  decide

theorem witness_StepKeepsUnloadedReset : ∃ t, UnloadedIsReset (fresh [.command 0x300000000001#48]) ∧
    (fresh [.command 0x300000000001#48]).block.fv = false ∧
    step (fresh [.command 0x300000000001#48]) = .next t :=
  ⟨_, fun _ => rfl, rfl, step_command (i := .par 1 0 0) rfl (by decide)⟩

theorem witness_StepIsTransaction :
    (loaded canonical [.command 0xFFFFFFFFFFFF#48, .rst]).inputs = .command 0xFFFFFFFFFFFF#48 :: [.rst] := by decide

theorem witness_ResponsesIgnoreParityPositions : Block.SameFormat ⟨canonical, true⟩ ⟨⟨63, 1, 16, 24, 0, 16⟩, true⟩ ∧
    Block.SameFormat ⟨canonical, false⟩ Block.reset :=
  ⟨⟨rfl, fun _ => ⟨rfl, rfl, rfl, rfl⟩⟩, rfl, fun h => nomatch h⟩

theorem witness_ReadersDoNotInterfere : ∀ e ∈ [Event.command 0x20000056782E#48, .command 0x34000056782E#48,
    .command 0x40000056782E#48, .command 0x50000056782E#48], readsOnly e = true := by decide

/-- For the statements on `extract` and `parity`: ranges at the edges, and a bit inside and outside. -/
theorem witness_ranges : (0 : Nat) ≤ 32 ∧ (32 : Nat) ≤ 32 ∧ (16 ≤ 24 ∧ (24 : Nat) ≤ 31 ∧ 31 ≤ 31) ∧
    (16 ≤ 16 ∧ 16 ≤ (24 : Nat)) ∧ ¬ (16 ≤ 25 ∧ 25 ≤ (24 : Nat)) := by decide

/-- S3: bit 24 lies outside the facility-code field `[16, 24)`. -/
theorem witness_ExtractionIsLocal : (0x0056782E#32) ≠ 0x0156782E#32 ∧
    ∀ i, 16 ≤ i → i < 24 → (0x0056782E#32).getLsbD i = (0x0156782E#32).getLsbD i := by
  refine ⟨by decide, ?_⟩
  intro i h1 h2
  interval_cases i <;> decide

theorem witness_NarrowingKeepsLowBits : (24 - 16 ≤ 8 ∧ 8 < 9 - 0 ∧ 16 - 0 ≤ 16 ∧ 16 < 17 - (0 : Nat)) ∧
    (⟨0, 0, 0, 9, 0, 17⟩ : Descriptor).RangesOk := by decide

theorem witness_ParityPosition32IsZero : (31 : Nat) ≤ 31 ∧ 32 < (33#6).toNat ∧
    (loaded ⟨0, 0, 0, 33, 0, 16⟩ []).block.fv = true ∧
    (32 < (loaded ⟨0, 0, 0, 33, 0, 16⟩ []).block.d.fcu.toNat) ∧
    (32 < (loaded ⟨0, 0, 0, 16, 0, 33⟩ []).block.d.cnu.toNat) := by decide

theorem witness_NaturalBinaryWidth : (1#32) ≠ 0 ∧ (0xFFFFFFFF#32) ≠ 0 := by decide

theorem witness_ParityIndicators : canonical.fcl.toNat ≤ canonical.fcu.toNat ∧
    canonical.cnl.toNat ≤ canonical.cnu.toNat := by decide

theorem witness_FrameLayout : 1 ≤ 1 ∧ 1 ≤ frameLen 0 - 2 ∧ 32 ≤ frameLen 0xFFFFFFFF - 2 ∧ frameLen 0 ≤ 3 := by
  decide

theorem witness_EncodeOfDecode : decode 0x3FFF0056782E#48 = .ok (.par 5666862 63 63) := by decide

theorem witness_OpcodeRowsSelectCommand : ldfRow ∈ opcodeTable ∧ decRow ∈ opcodeTable ∧ parRow ∈ opcodeTable ∧
    rndRow ∈ opcodeTable ∧ ∀ r ∈ opcodeTable, (0x50000056782E#48) &&& r.mask ≠ r.pattern := by decide

theorem witness_AssemblerEncodesLines : assemble (.rnd 5666862) = some 0x40000056782E#48 ∧
    AsmLine.rnd 5666862 ≠ .ldfStd := by decide

end Sys2Proof.Tests
end

section
/-! The statements of spec/00_scope.md: every step answers its event, and slices read bits. -/

namespace Sys2Proof.Machine

theorem slice_lt (v : Word) (hi lo : Nat) : slice v hi lo < 2 ^ (hi - lo + 1) :=
  Nat.mod_lt _ (Nat.two_pow_pos _)

theorem testBit_slice (v : Word) (hi lo k : Nat) :
    (slice v hi lo).testBit k = (decide (k ≤ hi - lo) && v.getLsbD (lo + k)) := by
  rw [slice, Nat.testBit_mod_two_pow, Nat.testBit_div_two_pow, BitVec.testBit_toNat]
  simp only [Nat.lt_succ_iff, Nat.add_comm k lo]

theorem bitAt_eq_div_mod (p : Payload) (i : Nat) : bitAt p i = p.toNat / 2 ^ i % 2 := by
  rw [bitAt, ← BitVec.testBit_toNat, Nat.toNat_testBit]

theorem bitAt_of_width_le (p : Payload) {i : Nat} (h : 32 ≤ i) : bitAt p i = 0 := by
  rw [bitAt, BitVec.getLsbD_of_ge p i h, Bool.toNat_false]

end Sys2Proof.Machine

open Sys2Proof Sys2Proof.Machine

/-- Settles O4, by the event that stands first: none, `rst`, a word that decodes, or an illegal word. -/
theorem stepAnswersEveryEvent : Obligations.StepAnswersEveryEvent := by
  intro s
  cases hin : s.inputs with
  | nil => exact ⟨s, [], step_idle hin, hin, (List.append_nil _).symm, rfl⟩
  | cons e rest =>
    cases e with
    | rst => exact ⟨_, [], step_rst hin, rfl, (List.append_nil _).symm, rfl⟩
    | command w =>
      cases hdec : decode w with
      | ok i => exact ⟨_, [responseTo s.block i], step_command hin hdec, rfl, rfl, rfl⟩
      | error err =>
        exact ⟨_, [errorResponse .illegalCommand], step_illegal hin hdec, rfl, rfl, rfl⟩

/-- Settles O30, from what a slice's bits are and what one bit is as a number. -/
theorem sliceReadsBits : Obligations.SliceReadsBits :=
  ⟨fun v hi lo _ => ⟨slice_lt v hi lo, testBit_slice v hi lo⟩, bitAt_eq_div_mod,
    fun p _ h => bitAt_of_width_le p h⟩

end

section
/-! The statements of spec/10_state.md: what writes the block, what the block holds after a run of events,
and which registers the responses depend on. -/

namespace Sys2Proof.Machine

/-! ## One command -/

/-- Rule R13: only `LDF` writes the block. -/
theorem blockAfter_of_ne_ldf (b : Block) {i : Instr}
    (h : ∀ pe po fcl fcu cnl cnu, i ≠ .ldf pe po fcl fcu cnl cnu) : blockAfter b i = b := by
  cases i with
  | ldf pe po fcl fcu cnl cnu => exact absurd rfl (h pe po fcl fcu cnl cnu)
  | dec p => rfl
  | par p lo hi => rfl
  | rnd p => rfl

theorem blockAfter_cases (b : Block) (i : Instr) : blockAfter b i = b ∨
    ∃ pe po fcl fcu cnl cnu, i = .ldf pe po fcl fcu cnl cnu ∧
      blockAfter b i = ⟨⟨pe, po, fcl, fcu, cnl, cnu⟩, true⟩ := by
  cases i with
  | ldf pe po fcl fcu cnl cnu => exact .inr ⟨pe, po, fcl, fcu, cnl, cnu, rfl, rfl⟩
  | dec p => exact .inl rfl
  | par p lo hi => exact .inl rfl
  | rnd p => exact .inl rfl

/-! ## One event, and a run of events -/

@[simp] theorem applyEvent_rst (b : Block) : applyEvent b .rst = (Block.reset, []) := rfl

theorem applyEvent_command {w : Word} {i : Instr} (b : Block) (h : decode w = .ok i) :
    applyEvent b (.command w) = (blockAfter b i, [responseTo b i]) := by
  rw [applyEvent, transact_of_decode b h]

theorem applyEvent_illegal {w : Word} {e : DecodeError} (b : Block) (h : decode w = .error e) :
    applyEvent b (.command w) = (b, [errorResponse .illegalCommand]) := by
  rw [applyEvent, transact_of_error b h]

@[simp] theorem runEvents_nil (b : Block) : runEvents b [] = (b, []) := rfl

@[simp] theorem runEvents_cons_fst (b : Block) (e : Event) (es : List Event) :
    (runEvents b (e :: es)).1 = (runEvents (applyEvent b e).1 es).1 := rfl

@[simp] theorem runEvents_cons_snd (b : Block) (e : Event) (es : List Event) :
    (runEvents b (e :: es)).2 = (applyEvent b e).2 ++ (runEvents (applyEvent b e).1 es).2 := rfl

/-- The reading words are the illegal ones and those of a command other than `LDF`. -/
theorem readsOnly_iff (e : Event) : readsOnly e = true ↔ ∃ w, e = .command w ∧
    ((∃ err, decode w = .error err) ∨
      ∃ i, decode w = .ok i ∧ ∀ pe po fcl fcu cnl cnu, i ≠ .ldf pe po fcl fcu cnl cnu) := by
  cases e with
  | rst => simp [readsOnly]
  | command w =>
    cases hdec : decode w with
    | error err => simp [readsOnly, hdec]
    | ok i => cases i <;> simp [readsOnly, hdec]

/-- What an event can be to the block: the reset, a load, or a reading word. -/
theorem event_cases (e : Event) : e = .rst ∨
    (∃ w pe po fcl fcu cnl cnu, e = .command w ∧ decode w = .ok (.ldf pe po fcl fcu cnl cnu)) ∨
    readsOnly e = true := by
  cases e with
  | rst => exact .inl rfl
  | command w =>
    cases hdec : decode w with
    | error err => exact .inr (.inr (by simp [readsOnly, hdec]))
    | ok i =>
      cases i with
      | ldf pe po fcl fcu cnl cnu => exact .inr (.inl ⟨w, pe, po, fcl, fcu, cnl, cnu, rfl, hdec⟩)
      | dec p => exact .inr (.inr (by simp [readsOnly, hdec]))
      | par p lo hi => exact .inr (.inr (by simp [readsOnly, hdec]))
      | rnd p => exact .inr (.inr (by simp [readsOnly, hdec]))

/-- A reading word leaves the block (rules R13, R74). -/
theorem applyEvent_fst_of_readsOnly {e : Event} (b : Block) (h : readsOnly e = true) :
    (applyEvent b e).1 = b := by
  obtain ⟨w, rfl, ⟨err, hdec⟩ | ⟨i, hdec, hi⟩⟩ := (readsOnly_iff e).1 h
  · rw [applyEvent_illegal b hdec]
  · rw [applyEvent_command b hdec]
    exact blockAfter_of_ne_ldf b hi

/-! ## The descriptor in force -/

@[simp] theorem current_reset : Block.reset.current = none := rfl

@[simp] theorem lastLoaded_rst (c : Option Descriptor) (es : List Event) :
    lastLoaded c (.rst :: es) = lastLoaded none es := rfl

theorem lastLoaded_ldf {w : Word} {pe po fcl fcu cnl cnu : Idx} (c : Option Descriptor)
    (es : List Event) (h : decode w = .ok (.ldf pe po fcl fcu cnl cnu)) :
    lastLoaded c (.command w :: es) = lastLoaded (some ⟨pe, po, fcl, fcu, cnl, cnu⟩) es := by
  rw [lastLoaded, h]

theorem lastLoaded_of_readsOnly {e : Event} (c : Option Descriptor) (es : List Event)
    (h : readsOnly e = true) : lastLoaded c (e :: es) = lastLoaded c es := by
  obtain ⟨w, rfl, ⟨err, hdec⟩ | ⟨i, hdec, hi⟩⟩ := (readsOnly_iff e).1 h
  · rw [lastLoaded, hdec]
  · rw [lastLoaded, hdec]
    cases i with
    | ldf pe po fcl fcu cnl cnu => exact absurd rfl (hi pe po fcl fcu cnl cnu)
    | dec p => rfl
    | par p lo hi => rfl
    | rnd p => rfl

/-- One event moves the block's descriptor as `lastLoaded` reads it from the events. -/
theorem lastLoaded_current_cons (b : Block) (e : Event) (es : List Event) :
    lastLoaded b.current (e :: es) = lastLoaded (applyEvent b e).1.current es := by
  obtain rfl | ⟨w, pe, po, fcl, fcu, cnl, cnu, rfl, hdec⟩ | hread := event_cases e
  · rw [lastLoaded_rst, applyEvent_rst, current_reset]
  · rw [lastLoaded_ldf _ _ hdec, applyEvent_command b hdec]
    rfl
  · rw [lastLoaded_of_readsOnly _ _ hread, applyEvent_fst_of_readsOnly b hread]

/-! ## Blocks of the same format -/

theorem Block.SameFormat.refl (b : Block) : Block.SameFormat b b :=
  ⟨rfl, fun _ => ⟨rfl, rfl, rfl, rfl⟩⟩

/-- Two blocks of the same format are both unloaded, or differ in `D.PE` and `D.PO` at most. -/
theorem Block.SameFormat.cases {a b : Block} (h : Block.SameFormat a b) :
    (a.fv = false ∧ b.fv = false) ∨
    ∃ d pe po, a = ⟨d, true⟩ ∧ b = ⟨{ d with pe := pe, po := po }, true⟩ := by
  obtain ⟨da, fva⟩ := a
  obtain ⟨⟨pe, po, fcl, fcu, cnl, cnu⟩, fvb⟩ := b
  obtain ⟨hfv, hranges⟩ := h
  cases hfv
  cases fva with
  | false => exact .inl ⟨rfl, rfl⟩
  | true =>
    obtain ⟨rfl, rfl, rfl, rfl⟩ := hranges rfl
    exact .inr ⟨da, pe, po, rfl, rfl⟩

/-- A result that reads neither `D.PE` nor `D.PO` makes a response that reads the format alone
(rules R17, R18): the test on the ranges does not read them either. -/
theorem Block.SameFormat.withDescriptor_eq {a b : Block} (h : Block.SameFormat a b)
    (f : Descriptor → Word) (hf : ∀ d pe po, f { d with pe := pe, po := po } = f d) :
    withDescriptor a f = withDescriptor b f := by
  obtain ⟨ha, hb⟩ | ⟨d, pe, po, rfl, rfl⟩ := h.cases
  · rw [withDescriptor_noFormat f ha, withDescriptor_noFormat f hb]
  · have hvalid : ({ d with pe := pe, po := po } : Descriptor).valid = d.valid := rfl
    simp only [withDescriptor, hvalid, hf]

theorem Block.SameFormat.responseTo_eq {a b : Block} (h : Block.SameFormat a b) (i : Instr) :
    responseTo a i = responseTo b i := by
  cases i with
  | ldf pe po fcl fcu cnl cnu => rfl
  | dec p =>
    exact h.withDescriptor_eq (fun d => decOkResponse (facilityCode d p) (cardNumber d p))
      fun _ _ _ => rfl
  | par p lo hi => rfl
  | rnd p =>
    exact h.withDescriptor_eq (fun d => rndOkResponse (frameLen p) (frame d p)) fun _ _ _ => rfl

theorem Block.SameFormat.blockAfter {a b : Block} (h : Block.SameFormat a b) (i : Instr) :
    Block.SameFormat (blockAfter a i) (blockAfter b i) := by
  cases i with
  | ldf pe po fcl fcu cnl cnu => exact .refl _
  | dec p => exact h
  | par p lo hi => exact h
  | rnd p => exact h

theorem Block.SameFormat.applyEvent {a b : Block} (h : Block.SameFormat a b) (e : Event) :
    (applyEvent a e).2 = (applyEvent b e).2 ∧
      Block.SameFormat (applyEvent a e).1 (applyEvent b e).1 := by
  cases e with
  | rst => exact ⟨rfl, .refl _⟩
  | command w =>
    cases hdec : decode w with
    | ok i =>
      rw [applyEvent_command a hdec, applyEvent_command b hdec, h.responseTo_eq i]
      exact ⟨rfl, h.blockAfter i⟩
    | error err =>
      rw [applyEvent_illegal a hdec, applyEvent_illegal b hdec]
      exact ⟨rfl, h⟩

end Sys2Proof.Machine

open Sys2Proof Sys2Proof.Machine

/-- Settles O23, by what the step did: only `rst` leaves `FV = 0` with new registers, and those are the
reset values. -/
theorem stepKeepsUnloadedReset : Obligations.StepKeepsUnloadedReset := by
  intro s t hs hstep
  obtain ⟨-, rfl⟩ | ⟨rest, -, rfl⟩ | ⟨w, rest, i, -, -, rfl⟩ | ⟨w, rest, e, -, -, rfl⟩ :=
    step_cases hstep
  · exact hs
  · exact fun _ => rfl
  · obtain hsame | ⟨pe, po, fcl, fcu, cnl, cnu, -, hload⟩ := blockAfter_cases s.block i
    · rw [hsame]
      exact hs
    · rw [hload]
      exact fun hfv => nomatch hfv
  · exact hs

/-- Settles O27, by induction on the events: one event moves the block's descriptor and `lastLoaded`
alike. -/
theorem blockHoldsLastLoaded : Obligations.BlockHoldsLastLoaded := by
  intro b es
  induction es generalizing b with
  | nil => rfl
  | cons e es ih => rw [runEvents_cons_fst, ih, lastLoaded_current_cons]

/-- Settles O28, by induction on the events: one event gives blocks of the same format the same
responses and leaves them of the same format. -/
theorem responsesIgnoreParityPositions : Obligations.ResponsesIgnoreParityPositions := by
  intro a b es h
  induction es generalizing a b with
  | nil => exact ⟨rfl, h⟩
  | cons e es ih =>
    obtain ⟨hresponse, hformat⟩ := h.applyEvent e
    obtain ⟨hresponses, hformats⟩ := ih _ _ hformat
    rw [runEvents_cons_snd, runEvents_cons_snd, hresponse, hresponses]
    exact ⟨rfl, hformats⟩

/-- Settles O29, by induction on the events: each leaves the block the next one is answered from. -/
theorem readersDoNotInterfere : Obligations.ReadersDoNotInterfere := by
  intro b es hread
  induction es with
  | nil => exact ⟨rfl, rfl⟩
  | cons e es ih =>
    obtain ⟨he, hes⟩ := List.forall_mem_cons.1 hread
    obtain ⟨hblock, hresponses⟩ := ih hes
    have hkeep := applyEvent_fst_of_readsOnly b he
    constructor
    · rw [runEvents_cons_fst, hkeep, hblock]
    · rw [runEvents_cons_snd, hkeep, hresponses]
      simp

/-- Settles O16: a step on a word that changed the block ran an `LDF`, and a command that leaves the
block is answered from the same block when it is sent again. -/
theorem onlyLdfWritesBlock : Obligations.OnlyLdfWritesBlock := by
  refine ⟨fun s t w rest hin hstep hchanged => ?_, fun s i hi => ?_⟩
  · cases hdec : decode w with
    | ok i =>
      rw [step_command hin hdec] at hstep
      cases hstep
      obtain hsame | ⟨pe, po, fcl, fcu, cnl, cnu, rfl, hload⟩ := blockAfter_cases s.block i
      · exact absurd hsame hchanged
      · exact ⟨pe, po, fcl, fcu, cnl, cnu, rfl, hload⟩
    | error err =>
      rw [step_illegal hin hdec] at hstep
      cases hstep
      exact absurd rfl hchanged
  · have hkeep := blockAfter_of_ne_ldf s.block hi
    have hexec : ∀ rs, exec i ⟨s.block, s.inputs, rs⟩ =
        .next ⟨s.block, s.inputs, rs ++ [responseTo s.block i]⟩ := fun rs => by
      rw [exec_eq, hkeep]
    exact ⟨_, _, _, hexec _, hexec _, rfl, rfl, rfl, rfl⟩

/-- Settles O24: at reset the registers hold their reset values and `FV` is 0. -/
theorem resetIsUnloaded : Obligations.ResetIsUnloaded := ⟨fun _ => rfl, rfl⟩

end

section
/-! The statements of spec/20_memory.md: the port's events taken one at a time, in order. -/

namespace Sys2Proof.Machine

/-- A step takes the oldest event and does to the block and the responses what that event alone does
(rules R24, R89). -/
theorem step_eq_applyEvent {s : State} {e : Event} {rest : List Event} (h : s.inputs = e :: rest) :
    step s = .next ⟨(applyEvent s.block e).1, rest, s.responses ++ (applyEvent s.block e).2⟩ := by
  cases e with
  | rst => rw [step_rst h, applyEvent_rst, List.append_nil]
  | command w =>
    cases hdec : decode w with
    | ok i => rw [step_command h hdec, applyEvent_command s.block hdec]
    | error err => rw [step_illegal h hdec, applyEvent_illegal s.block hdec]

theorem run_succ_of_step {M : Host.Core} {s t : M.State} (k : Nat) (h : M.step s = .next t) :
    M.run (k + 1) s = M.run k t := by
  rw [Host.Core.run, h]

end Sys2Proof.Machine

open Sys2Proof Sys2Proof.Machine

/-- Settles O26, by induction on the events: the first step acts as its event does, and the rest run
from the block and the responses it leaves. -/
theorem stepsAreRunOfEvents : Obligations.StepsAreRunOfEvents := by
  intro es rest b rs
  induction es generalizing b rs with
  | nil => rw [runEvents_nil, List.append_nil]; rfl
  | cons e es ih =>
    have hstep : core.step ⟨b, e :: es ++ rest, rs⟩ =
        .next ⟨(applyEvent b e).1, es ++ rest, rs ++ (applyEvent b e).2⟩ := step_eq_applyEvent rfl
    rw [List.length_cons, run_succ_of_step _ hstep, ih, runEvents_cons_fst, runEvents_cons_snd,
      List.append_assoc]

end

section
/-! The statements of spec/30_encoding.md: the decoder and the encoder are inverse, the rows of the opcode
map select the commands, the assembler spells them, and every response word is legal. -/

namespace Sys2Proof.Machine

/-! ## The round trip -/

/-- Rules R31 to R34, read through the slices of the encoded word. -/
theorem decode_encode (i : Instr) : decode (encode i) = .ok i := by
  rw [decode_eq_slices]
  cases i with
  | ldf pe po fcl fcu cnl cnu =>
    have hnum := encode_ldf_toNat pe po fcl fcu cnl cnu
    generalize encode (.ldf pe po fcl fcu cnl cnu) = w at hnum
    have hop : slice w 47 44 = 1 := by simp only [slice]; omega
    have hrsv : slice w 43 36 = 0 := by simp only [slice]; omega
    have hpe : slice w 5 0 = pe.toNat := by simp only [slice]; omega
    have hpo : slice w 11 6 = po.toNat := by simp only [slice]; omega
    have hfcl : slice w 17 12 = fcl.toNat := by simp only [slice]; omega
    have hfcu : slice w 23 18 = fcu.toNat := by simp only [slice]; omega
    have hcnl : slice w 29 24 = cnl.toNat := by simp only [slice]; omega
    have hcnu : slice w 35 30 = cnu.toNat := by simp only [slice]; omega
    simp [hop, hrsv, hpe, hpo, hfcl, hfcu, hcnl, hcnu]
  | dec p =>
    have hnum := encode_dec_toNat p
    generalize encode (.dec p) = w at hnum
    have hop : slice w 47 44 = 2 := by simp only [slice]; omega
    have hrsv : slice w 43 32 = 0 := by simp only [slice]; omega
    have hp : slice w 31 0 = p.toNat := by simp only [slice]; omega
    simp [hop, hrsv, hp]
  | par p lo hi =>
    have hnum := encode_par_toNat p lo hi
    generalize encode (.par p lo hi) = w at hnum
    have hop : slice w 47 44 = 3 := by simp only [slice]; omega
    have hp : slice w 31 0 = p.toNat := by simp only [slice]; omega
    have hlo : slice w 37 32 = lo.toNat := by simp only [slice]; omega
    have hhi : slice w 43 38 = hi.toNat := by simp only [slice]; omega
    simp [hop, hp, hlo, hhi]
  | rnd p =>
    have hnum := encode_rnd_toNat p
    generalize encode (.rnd p) = w at hnum
    have hop : slice w 47 44 = 4 := by simp only [slice]; omega
    have hrsv : slice w 43 32 = 0 := by simp only [slice]; omega
    have hp : slice w 31 0 = p.toNat := by simp only [slice]; omega
    simp [hop, hrsv, hp]

/-- The fields of an accepted word, with its opcode and its zero reserved bits, are all of its 48 bits. -/
theorem encode_of_decode {w : Word} {i : Instr} (h : decode w = .ok i) : encode i = w := by
  apply BitVec.eq_of_toNat_eq
  rw [decode_eq_slices] at h
  split_ifs at h <;> cases h
  · rw [encode_ldf_toNat]; simp only [slice, BitVec.toNat_ofNat] at *; omega
  · rw [encode_dec_toNat]; simp only [slice, BitVec.toNat_ofNat] at *; omega
  · rw [encode_par_toNat]; simp only [slice, BitVec.toNat_ofNat] at *; omega
  · rw [encode_rnd_toNat]; simp only [slice, BitVec.toNat_ofNat] at *; omega

/-! ## Illegal words and the opcode map -/

/-- Rule R35: the words that are not illegal are those that decode. -/
theorem illegalWord_eq_false_iff (w : Word) : illegalWord w = false ↔ ∃ i, decode w = .ok i := by
  rw [← Bool.not_eq_true, illegalWord_iff]
  cases decode w <;> simp

theorem illegalWord_encode (i : Instr) : illegalWord (encode i) = false :=
  (illegalWord_eq_false_iff _).2 ⟨i, decode_encode i⟩

/-- Rule R34: the family RowMatch, over every command. -/
theorem encode_mask_iff (i : Instr) : Laws.RowMatch.Statement i := by
  cases i with
  | ldf pe po fcl fcu cnl cnu => exact Laws.RowMatch.ldf pe po fcl fcu cnl cnu
  | dec p => exact Laws.RowMatch.dec p
  | par p lo hi => exact Laws.RowMatch.par p lo hi
  | rnd p => exact Laws.RowMatch.rnd p

theorem mask_iff_of_decode {w : Word} {i : Instr} (h : decode w = .ok i) {r : OpcodeRow}
    (hr : r ∈ opcodeTable) : w &&& r.mask = r.pattern ↔ r = rowOf i := by
  rw [← encode_of_decode h]
  exact encode_mask_iff i r hr

theorem rowOf_mem (i : Instr) : rowOf i ∈ opcodeTable := by
  cases i <;> simp [rowOf, opcodeTable]

/-- A word that matches a row has an assigned opcode and no reserved bit set. -/
theorem exists_decode_of_mask {w : Word} {r : OpcodeRow} (hr : r ∈ opcodeTable)
    (h : w &&& r.mask = r.pattern) : ∃ i, decode w = .ok i := by
  rw [← illegalWord_eq_false_iff, ← Bool.not_eq_true]
  simp only [illegalWord, Bool.or_eq_true, decide_eq_true_eq]
  unfold slice
  simp only [opcodeTable, List.mem_cons, List.not_mem_nil, or_false] at hr
  rcases hr with rfl | rfl | rfl | rfl
  · rw [ldfRow_iff] at h; omega
  · rw [decRow_iff] at h; omega
  · rw [parRow_iff] at h; omega
  · rw [rndRow_iff] at h; omega

/-! ## Lines of assembly -/

@[simp] theorem idxInRange_toNat (x : Idx) : idxInRange x.toNat = true :=
  decide_eq_true (Nat.le_of_lt_succ x.isLt)

@[simp] theorem payloadInRange_toNat (p : Payload) : payloadInRange p.toNat = true :=
  decide_eq_true (Nat.le_of_lt_succ p.isLt)

/-- Rule R42: an operand as wide as its field is in range. -/
theorem wellFormed_toAsm (i : Instr) : i.toAsm.wellFormed = true := by
  cases i <;> simp [Instr.toAsm, AsmLine.wellFormed]

theorem assemble_toAsm (i : Instr) : assemble i.toAsm = some (encode i) := by
  rw [assemble, if_pos (wellFormed_toAsm i), asmNumber_toAsm, BitVec.ofNat_toNat, BitVec.setWidth_eq]

theorem assemble_isSome (a : AsmLine) : (assemble a).isSome = a.wellFormed := by
  unfold assemble
  cases a.wellFormed <;> rfl

theorem toNat_ofNat_of_idxInRange {n : Nat} (h : idxInRange n = true) : (BitVec.ofNat 6 n).toNat = n :=
  Nat.mod_eq_of_lt (Nat.lt_succ_of_le (of_decide_eq_true h))

theorem toNat_ofNat_of_payloadInRange {n : Nat} (h : payloadInRange n = true) :
    (BitVec.ofNat 32 n).toNat = n :=
  Nat.mod_eq_of_lt (Nat.lt_succ_of_le (of_decide_eq_true h))

/-- Rule R39: a line whose operands are in range spells a command, or is the pseudo-instruction. -/
theorem exists_toAsm_of_wellFormed {a : AsmLine} (h : a.wellFormed = true) :
    a = .ldfStd ∨ ∃ i : Instr, i.toAsm = a := by
  cases a with
  | ldf pe po fcl fcu cnl cnu =>
    simp only [AsmLine.wellFormed, Bool.and_eq_true] at h
    obtain ⟨⟨⟨⟨⟨hpe, hpo⟩, hfcl⟩, hfcu⟩, hcnl⟩, hcnu⟩ := h
    refine .inr ⟨.ldf (.ofNat 6 pe) (.ofNat 6 po) (.ofNat 6 fcl) (.ofNat 6 fcu) (.ofNat 6 cnl)
      (.ofNat 6 cnu), ?_⟩
    simp only [Instr.toAsm, toNat_ofNat_of_idxInRange, *]
  | dec p => exact .inr ⟨.dec (.ofNat 32 p), congrArg _ (toNat_ofNat_of_payloadInRange h)⟩
  | par p lo hi =>
    simp only [AsmLine.wellFormed, Bool.and_eq_true] at h
    obtain ⟨⟨hp, hlo⟩, hhi⟩ := h
    refine .inr ⟨.par (.ofNat 32 p) (.ofNat 6 lo) (.ofNat 6 hi), ?_⟩
    simp only [Instr.toAsm, toNat_ofNat_of_payloadInRange hp, toNat_ofNat_of_idxInRange, *]
  | rnd p => exact .inr ⟨.rnd (.ofNat 32 p), congrArg _ (toNat_ofNat_of_payloadInRange h)⟩
  | ldfStd => exact .inl rfl

/-- Rule R40: the pseudo-instruction is the canonical `LDF`. -/
theorem assemble_ldfStd : assemble .ldfStd = some (encode (.ldf 0 25 16 24 0 16)) := by decide

/-! ## Legal responses -/

theorem legalResponse_of_ok {r : Word} (hstatus : rspStatus r = 0) (hzero : r.extractLsb' 40 4 = 0) :
    LegalResponse r :=
  ⟨.inl hstatus, hzero, fun hne => absurd hstatus hne⟩

/-- A word below `2 ^ 40` has status 0 and `rsp[43:40] = 0`. -/
theorem legalResponse_of_lt {r : Word} (h : r.toNat < 2 ^ 40) : LegalResponse r := by
  have hfield : ∀ lo, 40 ≤ lo → r.extractLsb' lo 4 = 0 := fun lo hlo => by
    rw [extractLsb'_eq_iff, Nat.div_eq_of_lt (h.trans_le (Nat.pow_le_pow_right (by decide) hlo))]
    rfl
  exact legalResponse_of_ok (hfield 44 (by decide)) (hfield 40 le_rfl)

/-- Rule R75: `InvalidParity` is the one status that no response may carry. -/
theorem legalResponse_errorResponse {k : Status} (h : k ≠ .invalidParity) :
    LegalResponse (errorResponse k) := by
  unfold LegalResponse
  cases k with
  | invalidParity => exact absurd rfl h
  | ok => decide
  | invalidRange => decide
  | illegalCommand => decide
  | noFormat => decide

theorem legalResponse_withDescriptor {b : Block} {f : Descriptor → Word}
    (h : ∀ d, LegalResponse (f d)) : LegalResponse (withDescriptor b f) := by
  obtain ⟨-, he⟩ | ⟨-, -, he⟩ | ⟨-, -, he⟩ := withDescriptor_cases b f <;> rw [he]
  · exact legalResponse_errorResponse (by decide)
  · exact legalResponse_errorResponse (by decide)
  · exact h b.d

theorem legalResponse_withRange {lo hi : Nat} {r : Word} (h : LegalResponse r) :
    LegalResponse (withRange lo hi r) := by
  by_cases hr : lo ≤ hi ∧ hi ≤ 32
  · rwa [withRange_ok r hr]
  · rw [withRange_invalid r hr]
    exact legalResponse_errorResponse (by decide)

theorem legalResponse_decOk (d : Descriptor) (p : Payload) :
    LegalResponse (decOkResponse (facilityCode d p) (cardNumber d p)) := by
  have hf := facilityCode_lt d p
  have hc := cardNumber_lt d p
  apply legalResponse_of_lt
  rw [decOkResponse_toNat hf hc]
  omega

theorem legalResponse_parOk (p : Payload) (lo hi : Nat) :
    LegalResponse (parOkResponse (parity p lo hi)) := by
  have hp := parity_lt_two p lo hi
  apply legalResponse_of_lt
  rw [parOkResponse, BitVec.toNat_ofNat]
  omega

theorem legalResponse_rndOk (d : Descriptor) (p : Payload) :
    LegalResponse (rndOkResponse (frameLen p) (frame d p)) := by
  obtain ⟨hstatus, hzero, -, -⟩ := rndOkResponse_fields d p
  exact legalResponse_of_ok hstatus hzero

/-- Rules R36, R70, R75: every command is answered with a legal word, whatever the block. -/
theorem legalResponse_responseTo (b : Block) (i : Instr) : LegalResponse (responseTo b i) := by
  cases i with
  | ldf pe po fcl fcu cnl cnu => exact legalResponse_of_lt (r := ldfResponse) (by decide)
  | dec p => exact legalResponse_withDescriptor fun d => legalResponse_decOk d p
  | par p lo hi => exact legalResponse_withRange (legalResponse_parOk p _ _)
  | rnd p => exact legalResponse_withDescriptor fun d => legalResponse_rndOk d p

/-- One more legal response keeps them all legal. -/
theorem ResponsesLegal.append {s : State} {r : Word} (hs : ResponsesLegal s) (hr : LegalResponse r) :
    ∀ q ∈ s.responses ++ [r], LegalResponse q :=
  List.forall_mem_append.2 ⟨hs, List.forall_mem_singleton.2 hr⟩

end Sys2Proof.Machine

open Sys2Proof Sys2Proof.Machine

/-- Settles O21, by what the step did: it gave no response, that of a command, or `IllegalCommand`. -/
theorem stepKeepsResponsesLegal : Obligations.StepKeepsResponsesLegal := by
  intro s t hs hstep
  obtain ⟨-, rfl⟩ | ⟨rest, -, rfl⟩ | ⟨w, rest, i, -, -, rfl⟩ | ⟨w, rest, e, -, -, rfl⟩ :=
    step_cases hstep
  · exact hs
  · exact hs
  · exact hs.append (legalResponse_responseTo s.block i)
  · exact hs.append (legalResponse_errorResponse (by decide))

/-- Settles O25: a step on an event does what that event alone does, and for a command word that is the
transaction. -/
theorem stepIsTransaction : Obligations.StepIsTransaction :=
  fun _ _ _ hin => step_eq_applyEvent hin

/-- Settles O45, from the slices of each command's word. -/
theorem decodeOfEncode : Obligations.DecodeOfEncode := decode_encode

/-- Settles O13: an illegal word is one that does not decode, and a word that decodes is the encoding of
its command. -/
theorem illegalWordsAreRejected : Obligations.IllegalWordsAreRejected := by
  refine ⟨fun s w rest hin hill => ?_, fun w hlegal => ?_, illegalWord_encode, by decide⟩
  · obtain ⟨e, hdec⟩ := (illegalWord_iff w).1 hill
    exact step_illegal hin hdec
  · obtain ⟨i, hdec⟩ := (illegalWord_eq_false_iff w).1 hlegal
    exact ⟨i, hdec, encode_of_decode hdec⟩

/-- Settles O46, from the slices of the word and its zero reserved bits. -/
theorem encodeOfDecode : Obligations.EncodeOfDecode := fun _ _ => encode_of_decode

/-- Settles O47: a word that matches a row decodes, and of the rows exactly its command's accepts it. -/
theorem opcodeRowsSelectCommand : Obligations.OpcodeRowsSelectCommand := by
  refine ⟨rfl, fun w r hr => ⟨fun hmatch => ?_, fun ⟨i, hdec, hrow⟩ => ?_⟩, fun w hnone => ?_, ?_⟩
  · obtain ⟨i, hdec⟩ := exists_decode_of_mask hr hmatch
    exact ⟨i, hdec, ((mask_iff_of_decode hdec hr).1 hmatch).symm⟩
  · exact (mask_iff_of_decode hdec hr).2 hrow.symm
  · by_contra hlegal
    obtain ⟨i, hdec⟩ := (illegalWord_eq_false_iff w).1 (Bool.eq_false_of_not_eq_true hlegal)
    exact hnone _ (rowOf_mem i) ((mask_iff_of_decode hdec (rowOf_mem i)).2 rfl)
  · have hdistinct : opcodeTable.Nodup := by decide
    refine hdistinct.imp_of_mem fun {q r} hq hr hne w ⟨hqw, hrw⟩ => hne ?_
    obtain ⟨i, hdec⟩ := exists_decode_of_mask hq hqw
    rw [(mask_iff_of_decode hdec hq).1 hqw, (mask_iff_of_decode hdec hr).1 hrw]

/-- Settles O49: a line in range is `LDF.STD` or spells a command, and either gives the word of a
command. -/
theorem assemblerEncodesLines : Obligations.AssemblerEncodesLines := by
  refine ⟨assemble_isSome, fun i => ⟨wellFormed_toAsm i, assemble_toAsm i⟩, fun a w hw => ?_,
    assemble_ldfStd.trans (assemble_toAsm _).symm, by decide⟩
  have hwf : a.wellFormed = true := by rw [← assemble_isSome, hw, Option.isSome_some]
  obtain rfl | ⟨i, rfl⟩ := exists_toAsm_of_wellFormed hwf
  · cases assemble_ldfStd.symm.trans hw
    exact ⟨illegalWord_encode _, fun hne => absurd rfl hne⟩
  · cases (assemble_toAsm i).symm.trans hw
    exact ⟨illegalWord_encode i, fun _ => ⟨i, rfl, rfl⟩⟩

/-- Settles O2: the step on a word that decodes is the command's execution with the word taken off. -/
theorem stepRunsDecodedCommand : Obligations.StepRunsDecodedCommand := by
  intro s w rest i hin hdec
  rw [step_command hin hdec, exec_eq]

/-- Settles O22: at reset no response has been given. -/
theorem resetResponsesLegal : Obligations.ResetResponsesLegal := List.forall_mem_nil _

/-- Settles O48: each worked word is the encoding of the command it spells. -/
theorem workedEncodingsDecode : Obligations.WorkedEncodingsDecode :=
  ⟨decode_encode (.ldf 0 25 16 24 0 16), decode_encode (.dec 5666862), decode_encode (.par 5666862 0 16),
    decode_encode (.par 5666862 16 24), decode_encode (.rnd 5666862)⟩

end

section
/-! The statements of spec/40_descriptor.md: which pairs are valid ranges, what `LDF` loads, and when a
command answers `InvalidRange`. -/

namespace Sys2Proof.Machine

/-! ## Valid ranges -/

/-- Rule R43: below an upper index of at most 32, each of the indices 0 to `upper` is a lower one. -/
theorem filter_validRange_eq_range {upper : Nat} (h : upper ≤ 32) :
    (Finset.range 64).filter (fun lower => validRange lower upper = true) = Finset.range (upper + 1) := by
  ext lower
  rw [Finset.mem_filter, Finset.mem_range, Finset.mem_range, validRange_iff]
  omega

theorem filter_validRange_eq_empty {upper : Nat} (h : 32 < upper) :
    (Finset.range 64).filter (fun lower => validRange lower upper = true) = ∅ :=
  Finset.filter_false_of_mem fun lower _ hv => absurd ((validRange_iff lower upper).1 hv).2 (by omega)

theorem card_filter_validRange (upper : Nat) :
    ((Finset.range 64).filter (fun lower => validRange lower upper = true)).card =
      if upper ≤ 32 then upper + 1 else 0 := by
  split_ifs with h
  · rw [filter_validRange_eq_range h, Finset.card_range]
  · rw [filter_validRange_eq_empty (Nat.lt_of_not_le h), Finset.card_empty]

/-- Rule R43: the valid pairs, counted by their upper index, are `1 + 2 + … + 33`. -/
theorem card_validRange_pairs :
    ((Finset.range 64 ×ˢ Finset.range 64).filter (fun q => validRange q.1 q.2 = true)).card = 561 :=
  calc ((Finset.range 64 ×ˢ Finset.range 64).filter (fun q => validRange q.1 q.2 = true)).card
    _ = ∑ upper ∈ Finset.range 64, ∑ lower ∈ Finset.range 64,
          if validRange lower upper = true then 1 else 0 := by
        rw [Finset.card_filter, Finset.sum_product_right]
    _ = ∑ upper ∈ Finset.range 64, if upper ≤ 32 then upper + 1 else 0 :=
        Finset.sum_congr rfl fun upper _ => by rw [← Finset.card_filter, card_filter_validRange]
    _ = 561 := by decide

/-! ## The error words -/

theorem errorResponse_invalidRange : errorResponse .invalidRange = 0x200000000000#48 := by decide

theorem errorResponse_illegalCommand : errorResponse .illegalCommand = 0x300000000000#48 := by decide

/-- The status field tells a successful response from an `InvalidRange`. -/
theorem ne_invalidRange_of_rspStatus_eq_zero {r : Word} (h : rspStatus r = 0) :
    r ≠ 0x200000000000#48 := by
  rintro rfl
  exact absurd h (by decide)

theorem rspStatus_parOkResponse (p : Payload) (lo hi : Nat) :
    rspStatus (parOkResponse (parity p lo hi)) = 0 := by
  have hp := parity_lt_two p lo hi
  obtain h | h : parity p lo hi = 0 ∨ parity p lo hi = 1 := by omega
  · rw [h]; decide
  · rw [h]; decide

/-! ## The tests on the ranges -/

/-- Rule R44, for a command that consumes the descriptor and answers `OK` past the tests. -/
theorem withDescriptor_eq_invalidRange_iff {b : Block} {f : Descriptor → Word} (hfv : b.fv = true)
    (hok : rspStatus (f b.d) = 0) :
    withDescriptor b f = 0x200000000000#48 ↔ ¬ b.d.RangesOk := by
  by_cases hr : b.d.RangesOk
  · rw [withDescriptor_ok f hfv hr]
    exact iff_of_false (ne_invalidRange_of_rspStatus_eq_zero hok) (not_not_intro hr)
  · rw [withDescriptor_invalid f hfv hr]
    exact iff_of_true errorResponse_invalidRange hr

/-- Rule R44, for a command that consumes the range `(lo, hi)` and answers `OK` past the test. -/
theorem withRange_eq_invalidRange_iff {lo hi : Nat} {r : Word} (hok : rspStatus r = 0) :
    withRange lo hi r = 0x200000000000#48 ↔ ¬ (lo ≤ hi ∧ hi ≤ 32) := by
  by_cases hr : lo ≤ hi ∧ hi ≤ 32
  · rw [withRange_ok r hr]
    exact iff_of_false (ne_invalidRange_of_rspStatus_eq_zero hok) (not_not_intro hr)
  · rw [withRange_invalid r hr]
    exact iff_of_true errorResponse_invalidRange hr

theorem decResponse_eq_invalidRange_iff {b : Block} (p : Payload) (hfv : b.fv = true) :
    decResponse b p = 0x200000000000#48 ↔ ¬ b.d.RangesOk :=
  withDescriptor_eq_invalidRange_iff hfv (decOkResponse_fields b.d p).1

theorem rndResponse_eq_invalidRange_iff {b : Block} (p : Payload) (hfv : b.fv = true) :
    rndResponse b p = 0x200000000000#48 ↔ ¬ b.d.RangesOk :=
  withDescriptor_eq_invalidRange_iff hfv (rndOkResponse_fields b.d p).1

theorem parResponse_eq_invalidRange_iff (p : Payload) (lo hi : Idx) :
    parResponse p lo hi = 0x200000000000#48 ↔ ¬ (lo.toNat ≤ hi.toNat ∧ hi.toNat ≤ 32) :=
  withRange_eq_invalidRange_iff (rspStatus_parOkResponse p lo.toNat hi.toNat)

/-! ## One command that reads the block -/

theorem exec_dec (p : Payload) (s : State) :
    exec (.dec p) s = .next { s with responses := s.responses ++ [decResponse s.block p] } :=
  exec_eq (.dec p) s

theorem exec_rnd (p : Payload) (s : State) :
    exec (.rnd p) s = .next { s with responses := s.responses ++ [rndResponse s.block p] } :=
  exec_eq (.rnd p) s

theorem exec_par (p : Payload) (lo hi : Idx) (s : State) :
    exec (.par p lo hi) s = .next { s with responses := s.responses ++ [parResponse p lo hi] } :=
  exec_eq (.par p lo hi) s

/-! ## The word of `LDF` -/

/-- Rule R31: with opcode 1 and the reserved bits clear, the six fields are the operands. -/
theorem decode_ldf_of_slices {w : Word} (hop : slice w 47 44 = 1) (hrsv : slice w 43 36 = 0) :
    decode w = .ok (.ldf (BitVec.ofNat 6 (slice w 5 0)) (BitVec.ofNat 6 (slice w 11 6))
      (BitVec.ofNat 6 (slice w 17 12)) (BitVec.ofNat 6 (slice w 23 18))
      (BitVec.ofNat 6 (slice w 29 24)) (BitVec.ofNat 6 (slice w 35 30))) := by
  rw [decode_eq_slices, if_pos hop, if_pos hrsv]

theorem decode_ldf_reserved {w : Word} (hop : slice w 47 44 = 1) (hrsv : slice w 43 36 ≠ 0) :
    decode w = .error (.reservedBits (opcodeField w)) := by
  rw [decode_eq_slices, if_pos hop, if_neg hrsv]

/-! ## The canonical descriptor -/

theorem decResponse_canonical :
    decResponse ⟨⟨0, 25, 16, 24, 0, 16⟩, true⟩ 5666862 = 0x00000056782E#48 := by decide

/-- 5666862 lies between `2 ^ 22` and `2 ^ 23`. -/
theorem nbw_5666862 : nbw 5666862 = 23 := by
  rw [nbw_eq_size]
  decide

theorem rndResponse_canonical :
    rndResponse ⟨⟨0, 25, 16, 24, 0, 16⟩, true⟩ 5666862 = 0x006400ACF05D#48 := by
  have hranges : Descriptor.RangesOk ⟨0, 25, 16, 24, 0, 16⟩ := by decide
  rw [rndResponse, withDescriptor_ok _ rfl hranges, frameLen, frame, nbw_5666862]
  decide

end Sys2Proof.Machine

open Sys2Proof Sys2Proof.Machine

/-- Settles O12: past the tests the answers are `OK`, so `InvalidRange` comes from a failed test alone,
and `LDF` answers `OK` whatever it loads. -/
theorem invalidRangeExactlyOnBadRange : Obligations.InvalidRangeExactlyOnBadRange := by
  refine ⟨fun s p hfv => ?_, fun s p lo hi => ?_, fun s pe po fcl fcu cnl cnu => ?_⟩
  · exact ⟨_, _, exec_dec p s, exec_rnd p s, decResponse_eq_invalidRange_iff p hfv,
      rndResponse_eq_invalidRange_iff p hfv⟩
  · exact ⟨_, exec_par p lo hi s, parResponse_eq_invalidRange_iff p lo hi⟩
  · exact ⟨_, exec_eq _ s, rfl⟩

/-- Settles O7: the load is unconditional, a reserved bit stops the decoding before it, and a range it
loads is tested by the commands that consume it. -/
theorem ldfLoadsDescriptor : Obligations.LdfLoadsDescriptor := by
  refine ⟨fun s pe po fcl fcu cnl cnu => exec_eq _ s, fun w => decode_ldf_of_slices,
    fun s w rest hin hop hrsv => ?_, fun s p pe po fcl fcu cnl cnu hbad t ht => ?_⟩
  · rw [step_illegal hin (decode_ldf_reserved hop hrsv), errorResponse_illegalCommand]
  · rw [exec_eq] at ht
    cases ht
    rw [exec_dec, exec_rnd, (decResponse_eq_invalidRange_iff p rfl).2 hbad,
      (rndResponse_eq_invalidRange_iff p rfl).2 hbad]
    exact ⟨rfl, rfl⟩

/-- Settles O20: the two responses on the canonical descriptor, and the digits of the second. -/
theorem canonicalVector : Obligations.CanonicalVector := by
  refine fun ins rs => ⟨?_, ?_, by decide⟩
  · rw [exec_dec, decResponse_canonical]
  · rw [exec_rnd, rndResponse_canonical]

/-- Settles O31, with the pairs counted by their upper index. -/
theorem validRangeMeaning : Obligations.ValidRangeMeaning :=
  ⟨validRange_iff, card_validRange_pairs, by decide⟩

end

section
/-! The statements of spec/41_extract_decode.md: what `extract` reads, what narrowing keeps of it, and what
`DEC` answers. -/

namespace Sys2Proof.Machine

/-! ## Extraction -/

theorem extract_lt (p : Payload) (lower upper : Nat) : extract p lower upper < 2 ^ (upper - lower) :=
  Nat.mod_lt _ (Nat.two_pow_pos _)

/-- Rule R47: the empty range has no bit. -/
@[simp] theorem extract_self (p : Payload) (k : Nat) : extract p k k = 0 := by
  rw [extract_eq, Nat.sub_self, Nat.pow_zero, Nat.mod_one]

/-- Rule R47: the full range has all the bits. -/
theorem extract_full (p : Payload) : extract p 0 32 = p.toNat := by
  rw [extract_eq, Nat.pow_zero, Nat.div_one, Nat.sub_zero, Nat.mod_eq_of_lt p.isLt]

/-- Rule R48: the bits of the half-open range are all that `extract` reads. -/
theorem extract_congr {p q : Payload} {lower upper : Nat}
    (h : ∀ i, lower ≤ i → i < upper → p.getLsbD i = q.getLsbD i) :
    extract p lower upper = extract q lower upper := by
  refine Nat.eq_of_testBit_eq fun k => ?_
  rw [testBit_extract, testBit_extract]
  by_cases hk : k < upper - lower
  · rw [h (lower + k) (by omega) (by omega)]
  · simp only [hk, decide_false, Bool.false_and]

/-- Rule R50: narrowing a range that fits loses nothing. -/
theorem extract_mod_of_width_le (p : Payload) {lower upper n : Nat} (h : upper - lower ≤ n) :
    extract p lower upper % 2 ^ n = extract p lower upper :=
  Nat.mod_eq_of_lt ((extract_lt p lower upper).trans_le (Nat.pow_le_pow_right (by decide) h))

/-- Rule R50: narrowing a wider range to `n` bits leaves its lowest `n` positions. -/
theorem extract_mod_of_le_width (p : Payload) {lower upper n : Nat} (h : n ≤ upper - lower) :
    extract p lower upper % 2 ^ n = extract p lower (lower + n) := by
  rw [extract_eq, extract_eq, Nat.mod_mod_of_dvd _ (Nat.pow_dvd_pow 2 h), Nat.add_sub_cancel_left]

/-! ## One payload bit flipped -/

theorem getLsbD_flip (p : Payload) {k : Nat} (hk : k ≤ 31) (i : Nat) :
    (p ^^^ BitVec.twoPow 32 k).getLsbD i = (p.getLsbD i ^^ decide (i = k)) := by
  have hwidth : k < 32 := Nat.lt_succ_of_le hk
  simp only [BitVec.getLsbD_xor, BitVec.getLsbD_twoPow, hwidth, decide_true, Bool.true_and, eq_comm]

theorem getLsbD_flip_of_ne (p : Payload) {k i : Nat} (hk : k ≤ 31) (hi : i ≠ k) :
    (p ^^^ BitVec.twoPow 32 k).getLsbD i = p.getLsbD i := by
  rw [getLsbD_flip p hk, decide_eq_false hi, Bool.xor_false]

theorem bitAt_flip_self (p : Payload) {k : Nat} (hk : k ≤ 31) :
    bitAt (p ^^^ BitVec.twoPow 32 k) k = 1 - bitAt p k := by
  rw [bitAt, bitAt, getLsbD_flip p hk, decide_eq_true rfl, Bool.xor_true]
  cases p.getLsbD k <;> rfl

theorem bitAt_flip_of_ne (p : Payload) {k i : Nat} (hk : k ≤ 31) (hi : i ≠ k) :
    bitAt (p ^^^ BitVec.twoPow 32 k) i = bitAt p i := by
  rw [bitAt, bitAt, getLsbD_flip_of_ne p hk hi]

/-- Rule R54: the last position of the inclusive range adds its bit to those of the half-open one. -/
theorem parity_eq_sum_add_bitAt (p : Payload) {lower upper : Nat} (h : lower ≤ upper) :
    parity p lower upper =
      (((List.range' lower (upper - lower)).map (bitAt p)).sum + bitAt p upper) % 2 := by
  have hlast : lower + 1 * (upper - lower) = upper := by omega
  rw [parity, List.range'_concat, hlast]
  simp

/-- Rule R55: flipping the bit at the upper end of a range flips the parity of the range. -/
theorem parity_flip_upper (p : Payload) {lower upper : Nat} (h : lower ≤ upper) (hu : upper ≤ 31) :
    parity (p ^^^ BitVec.twoPow 32 upper) lower upper = 1 - parity p lower upper := by
  have hbelow : (List.range' lower (upper - lower)).map (bitAt (p ^^^ BitVec.twoPow 32 upper)) =
      (List.range' lower (upper - lower)).map (bitAt p) :=
    List.map_congr_left fun i hi => bitAt_flip_of_ne p hu (by rw [List.mem_range'_1] at hi; omega)
  have hbit := bitAt_le_one p upper
  rw [parity_eq_sum_add_bitAt _ h, parity_eq_sum_add_bitAt _ h, hbelow, bitAt_flip_self p hu]
  omega

/-! ## The response to `DEC` -/

theorem errorResponse_noFormat : errorResponse .noFormat = 0x400000000000#48 := by decide

theorem facilityCode_eq (d : Descriptor) (p : Payload) :
    facilityCode d p = extract p d.fcl.toNat d.fcu.toNat % 2 ^ 8 := rfl

theorem cardNumber_eq (d : Descriptor) (p : Payload) :
    cardNumber d p = extract p d.cnl.toNat d.cnu.toNat % 2 ^ 16 := rfl

theorem decResponse_ok {b : Block} (p : Payload) (hfv : b.fv = true) (hr : b.d.RangesOk) :
    decResponse b p = decOkResponse (facilityCode b.d p) (cardNumber b.d p) :=
  withDescriptor_ok _ hfv hr

theorem decResponse_noFormat {b : Block} (p : Payload) (hfv : b.fv = false) :
    decResponse b p = 0x400000000000#48 :=
  (withDescriptor_noFormat _ hfv).trans errorResponse_noFormat

/-- Rule R49: what a successful `DEC` answers, field by field, and that the two fields are all of it. -/
theorem decResponse_fields {b : Block} (p : Payload) (hfv : b.fv = true) (hr : b.d.RangesOk) :
    rspStatus (decResponse b p) = 0 ∧
    (rspFacilityCode (decResponse b p)).toNat = facilityCode b.d p ∧
    (rspCardNumber (decResponse b p)).toNat = cardNumber b.d p ∧
    (decResponse b p).toNat = facilityCode b.d p * 2 ^ 16 + cardNumber b.d p := by
  rw [decResponse_ok p hfv hr]
  obtain ⟨hstatus, hfc, hcn⟩ := decOkResponse_fields b.d p
  exact ⟨hstatus, hfc, hcn, decOkResponse_toNat (facilityCode_lt b.d p) (cardNumber_lt b.d p)⟩

/-- Rule R51: the statuses `DEC` can answer with. -/
theorem rspStatus_decResponse_cases (b : Block) (p : Payload) :
    rspStatus (decResponse b p) = 0 ∨ rspStatus (decResponse b p) = 4 ∨
      rspStatus (decResponse b p) = 2 := by
  by_cases hfv : b.fv = true
  · by_cases hr : b.d.RangesOk
    · exact .inl (decResponse_fields p hfv hr).1
    · rw [(decResponse_eq_invalidRange_iff p hfv).2 hr]
      exact .inr (.inr (by decide))
  · rw [decResponse_noFormat p (Bool.eq_false_of_not_eq_true hfv)]
    exact .inr (.inl (by decide))

/-- Rules R18, R51: `DEC` reads no parity position. -/
theorem decResponse_parityPositions (d : Descriptor) (fv : Bool) (p : Payload) (pe po : Idx) :
    decResponse ⟨{ d with pe := pe, po := po }, fv⟩ p = decResponse ⟨d, fv⟩ p :=
  Block.SameFormat.responseTo_eq ⟨rfl, fun _ => ⟨rfl, rfl, rfl, rfl⟩⟩ (.dec p)

theorem exec_dec_of_invalid {s : State} (p : Payload) (hfv : s.block.fv = true)
    (hr : ¬ s.block.d.RangesOk) :
    exec (.dec p) s = .next { s with responses := s.responses ++ [0x200000000000#48] } := by
  rw [exec_dec, (decResponse_eq_invalidRange_iff p hfv).2 hr]

/-! ## The word of `DEC` -/

/-- Rule R32: with opcode 2 and the reserved bits clear, the low 32 bits are the payload. -/
theorem decode_dec_of_slices {w : Word} (hop : slice w 47 44 = 2) (hrsv : slice w 43 32 = 0) :
    decode w = .ok (.dec (BitVec.ofNat 32 (slice w 31 0))) := by
  simp [decode_eq_slices, hop, hrsv]

theorem decode_dec_reserved {w : Word} (hop : slice w 47 44 = 2) (hrsv : slice w 43 32 ≠ 0) :
    decode w = .error (.reservedBits (opcodeField w)) := by
  simp [decode_eq_slices, hop, hrsv]

end Sys2Proof.Machine

open Sys2Proof Sys2Proof.Machine

/-- Settles O8: past the two tests the response is the two narrowed extractions side by side, and a
reserved bit stops the decoding before them. -/
theorem decReturnsFields : Obligations.DecReturnsFields := by
  refine ⟨fun s p hfv hr => ?_, fun s p hfv => ?_, fun s p => exec_dec_of_invalid p,
    fun w => decode_dec_of_slices, fun s w rest hin hop hrsv => ?_⟩
  · obtain ⟨hstatus, hfc, hcn, hall⟩ := decResponse_fields p hfv hr
    refine ⟨_, exec_dec p s, hstatus, ?_, ?_, ?_⟩
    · rw [hfc, facilityCode_eq, extract_eq]
    · rw [hcn, cardNumber_eq, extract_eq]
    · rw [hall, hfc, hcn]
  · rw [exec_dec, decResponse_noFormat p hfv]
  · rw [step_illegal hin (decode_dec_reserved hop hrsv), errorResponse_illegalCommand]

/-- Settles O17: blocks that differ in `D.PE` and `D.PO` alone answer alike, and `DEC` has three ends, of
which a valid loaded descriptor leaves one. -/
theorem decIgnoresParity : Obligations.DecIgnoresParity := by
  refine fun s p pe po => ⟨_, exec_dec p s, ?_, rspStatus_decResponse_cases s.block p,
    fun hfv hr => (decResponse_fields p hfv hr).1⟩
  rw [exec_dec, decResponse_parityPositions]

/-- Settles O32, from the bits of an extracted value; `DEC` refuses an invalid range before it
extracts. -/
theorem extractReadsHalfOpenRange : Obligations.ExtractReadsHalfOpenRange :=
  ⟨fun p lower upper _ _ => ⟨extract_eq p lower upper, testBit_extract p lower upper⟩,
    fun p k _ => extract_self p k, extract_full, fun _ p => exec_dec_of_invalid p⟩

/-- Settles O33, bit by bit. -/
theorem extractionIsLocal : Obligations.ExtractionIsLocal := fun _ _ _ _ _ _ h => extract_congr h

/-- Settles O34: each field is an extraction modulo a power of two, which is the whole of it or its lowest
positions by the width of the range. -/
theorem narrowingKeepsLowBits : Obligations.NarrowingKeepsLowBits := by
  refine ⟨fun s p hfv hr => ?_, by decide⟩
  obtain ⟨hstatus, hfc, hcn, -⟩ := decResponse_fields p hfv hr
  refine ⟨_, exec_dec p s, hstatus, hfc, fun hfit => ?_, fun hwide => ?_, hcn, fun hfit => ?_,
    fun hwide => ?_⟩
  · rw [hfc, facilityCode_eq, extract_mod_of_width_le p hfit]
  · rw [hfc, facilityCode_eq, extract_mod_of_le_width p hwide.le]
  · rw [hcn, cardNumber_eq, extract_mod_of_width_le p hfit]
  · rw [hcn, cardNumber_eq, extract_mod_of_le_width p hwide.le]

/-- Settles O38: the bit at `upper` is the last one summed, and lies past the last one extracted. -/
theorem upperBitIsParityOnly : Obligations.UpperBitIsParityOnly := by
  intro p lower upper h hu
  constructor
  · have hlt := parity_lt_two p lower upper
    rw [parity_flip_upper p h hu]
    omega
  · exact extract_congr fun i _ hi => getLsbD_flip_of_ne p hu hi.ne

end

section
/-! The statements of spec/42_parity.md: what `parity` sums, what a flipped bit does to it, and what `PAR`
and the parity bits of `RND` answer. -/

namespace Sys2Proof.Machine

/-! ## The parity function -/

/-- Rule R54: one more position adds its bit modulo 2. -/
theorem parity_succ (p : Payload) {lower upper : Nat} (h : lower ≤ upper) :
    parity p lower (upper + 1) = (parity p lower upper + bitAt p (upper + 1)) % 2 := by
  rw [parity_eq_setBits p h, parity_eq_setBits p (Nat.le_succ_of_le h), setBits_succ p h, Nat.mod_add_mod,
    bitAt]

/-- Rule R54, in its second form: the bits joined by exclusive or. -/
theorem parity_succ_xor (p : Payload) {lower upper : Nat} (h : lower ≤ upper) :
    parity p lower (upper + 1) = parity p lower upper ^^^ (p.getLsbD (upper + 1)).toNat := by
  have hlt : parity p lower upper ^^^ bitAt p (upper + 1) < 2 :=
    Nat.xor_lt_two_pow (n := 1) (parity_lt_two p lower upper) (Nat.lt_succ_of_le (bitAt_le_one p _))
  rw [parity_succ p h, ← Nat.xor_mod_two_eq, Nat.mod_eq_of_lt hlt, bitAt]

theorem parity_self (p : Payload) (k : Nat) : parity p k k = (p.getLsbD k).toNat := by
  rw [parity_eq_setBits p le_rfl, setBits_self, Nat.mod_eq_of_lt (Bool.toNat_lt _)]

/-- Rule R54: the bits of the inclusive range are all that `parity` reads. -/
theorem parity_congr {p q : Payload} {lower upper : Nat} (hle : lower ≤ upper)
    (h : ∀ i, lower ≤ i → i ≤ upper → bitAt p i = bitAt q i) :
    parity p lower upper = parity q lower upper := by
  have hmap : (List.range' lower (upper - lower + 1)).map (bitAt p) =
      (List.range' lower (upper - lower + 1)).map (bitAt q) :=
    List.map_congr_left fun i hi => by
      rw [List.mem_range'_1] at hi
      exact h i (by omega) (by omega)
  rw [parity, parity, hmap]

/-- Rule R57, inside: the flipped bit is the last one of a range, and the positions above it keep
theirs. -/
theorem parity_flip_of_mem (p : Payload) {lower upper k : Nat} (hk : k ≤ 31) (hlower : lower ≤ k)
    (hupper : k ≤ upper) :
    parity (p ^^^ BitVec.twoPow 32 k) lower upper = 1 - parity p lower upper := by
  induction upper, hupper using Nat.le_induction with
  | base => exact parity_flip_upper p hlower hk
  | succ upper hupper ih =>
    have hle : lower ≤ upper := hlower.trans hupper
    have hlt := parity_lt_two p lower upper
    have hbit := bitAt_le_one p (upper + 1)
    rw [parity_succ _ hle, parity_succ p hle, ih, bitAt_flip_of_ne p hk (by omega)]
    omega

/-- Rule R57, outside: the range reads none of the flipped bit. -/
theorem parity_flip_of_not_mem (p : Payload) {lower upper k : Nat} (hle : lower ≤ upper) (hk : k ≤ 31)
    (hout : ¬ (lower ≤ k ∧ k ≤ upper)) :
    parity (p ^^^ BitVec.twoPow 32 k) lower upper = parity p lower upper :=
  parity_congr hle fun i hlo hhi => bitAt_flip_of_ne p hk (by rintro rfl; exact hout ⟨hlo, hhi⟩)

/-- Rule R58: a range that ends at the width of the payload has the parity of its positions below. -/
theorem parity_width (p : Payload) {lower : Nat} (h : lower ≤ 31) :
    parity p lower 32 = parity p lower 31 := by
  rw [parity_succ p h, bitAt_of_width_le p le_rfl, Nat.add_zero,
    Nat.mod_eq_of_lt (parity_lt_two p lower 31)]

/-! ## The response to `PAR` -/

theorem parResponse_ok (p : Payload) {lo hi : Idx} (h : lo.toNat ≤ hi.toNat ∧ hi.toNat ≤ 32) :
    parResponse p lo hi = parOkResponse (parity p lo.toNat hi.toNat) :=
  withRange_ok _ h

theorem exec_par_of_valid (s : State) (p : Payload) {lo hi : Idx}
    (h : lo.toNat ≤ hi.toNat ∧ hi.toNat ≤ 32) :
    exec (.par p lo hi) s =
      .next { s with responses := s.responses ++ [parOkResponse (parity p lo.toNat hi.toNat)] } := by
  rw [exec_par, parResponse_ok p h]

theorem exec_par_of_invalid (s : State) (p : Payload) {lo hi : Idx}
    (h : ¬ (lo.toNat ≤ hi.toNat ∧ hi.toNat ≤ 32)) :
    exec (.par p lo hi) s = .next { s with responses := s.responses ++ [0x200000000000#48] } := by
  rw [exec_par, (parResponse_eq_invalidRange_iff p lo hi).2 h]

/-- Rule R33: with opcode 3 every word is legal, and its fields are the operands. -/
theorem decode_par_of_slices {w : Word} (hop : slice w 47 44 = 3) :
    decode w = .ok (.par (BitVec.ofNat 32 (slice w 31 0)) (BitVec.ofNat 6 (slice w 37 32))
      (BitVec.ofNat 6 (slice w 43 38))) := by
  simp [decode_eq_slices, hop]

/-- Rule R37: the result bit of a successful `PAR` is the parity. -/
theorem getLsbD_rspParity_zero (p : Payload) (lo hi : Nat) :
    (rspParity (parOkResponse (parity p lo hi))).getLsbD 0 = decide (parity p lo hi = 1) := by
  have hlt := parity_lt_two p lo hi
  have hfield : (rspParity (parOkResponse (parity p lo hi))).toNat = parity p lo hi := by
    rw [rspParity, parOkResponse, toNat_field_ofNat]
    omega
  rw [← BitVec.testBit_toNat, hfield, testBit_zero_of_lt_two hlt]

/-! ## The response to `RND` -/

theorem rndResponse_ok {b : Block} (p : Payload) (hfv : b.fv = true) (hr : b.d.RangesOk) :
    rndResponse b p = rndOkResponse (frameLen p) (frame b.d p) :=
  withDescriptor_ok _ hfv hr

theorem exec_rnd_of_valid {s : State} (p : Payload) (hfv : s.block.fv = true)
    (hr : s.block.d.RangesOk) :
    exec (.rnd p) s = .next { s with
      responses := s.responses ++ [rndOkResponse (frameLen p) (frame s.block.d p)] } := by
  rw [exec_rnd, rndResponse_ok p hfv hr]

theorem exec_rnd_of_invalid {s : State} (p : Payload) (hfv : s.block.fv = true)
    (hr : ¬ s.block.d.RangesOk) :
    exec (.rnd p) s = .next { s with responses := s.responses ++ [0x200000000000#48] } := by
  rw [exec_rnd, (rndResponse_eq_invalidRange_iff p hfv).2 hr]

/-- Rule R62: the first digit of a rendered frame is the even-parity bit. -/
theorem getLsbD_rspFrame_first (d : Descriptor) (p : Payload) :
    (rspFrame (rndOkResponse (frameLen p) (frame d p))).getLsbD
        ((rspLen (rndOkResponse (frameLen p) (frame d p))).toNat - 1) =
      decide (evenParityBit d p = 1) := by
  obtain ⟨-, -, hlen, hframe⟩ := rndOkResponse_fields d p
  have hfirst : frameLen p - 1 = nbw p + 1 := rfl
  rw [← BitVec.testBit_toNat, hframe, hlen, hfirst, testBit_frame, if_pos rfl]

/-- Rule R62: the last digit of a rendered frame is the odd-parity bit. -/
theorem getLsbD_rspFrame_last (d : Descriptor) (p : Payload) :
    (rspFrame (rndOkResponse (frameLen p) (frame d p))).getLsbD 0 = decide (oddParityBit d p = 1) := by
  obtain ⟨-, -, -, hframe⟩ := rndOkResponse_fields d p
  rw [← BitVec.testBit_toNat, hframe, testBit_frame, if_neg (Nat.succ_ne_zero _).symm, if_pos rfl]

/-- Rule R63: the odd-parity bit is set where the parity of the card-number range is not. -/
theorem oddParityBit_eq_one_iff (d : Descriptor) (p : Payload) :
    oddParityBit d p = 1 ↔ ¬ parity p d.cnl.toNat d.cnu.toNat = 1 := by
  have hlt := parity_lt_two p d.cnl.toNat d.cnu.toNat
  rw [oddParityBit_eq]
  omega

end Sys2Proof.Machine

open Sys2Proof Sys2Proof.Machine

/-- Settles O35: the bits summed are the set ones, counted, and the sum grows by one position at a
time. -/
theorem paritySumsInclusiveRange : Obligations.ParitySumsInclusiveRange := by
  refine ⟨fun p lower upper h => ⟨parity_eq_setBits p h, ?_, ?_, parity_succ_xor p h, ?_⟩, parity_self⟩
  · rw [parity_eq_setBits p h, Nat.odd_iff]
  · rw [parity_eq_setBits p h, Nat.even_iff]
  · rw [Nat.card_Icc, Nat.sub_add_comm h]

/-- Settles O37, by whether the flipped position lies in the range. -/
theorem parityToggles : Obligations.ParityToggles := by
  intro p lower upper k hle hk
  split_ifs with hin
  · obtain ⟨hlower, hupper⟩ := hin
    exact parity_flip_of_mem p hk hlower hupper
  · exact parity_flip_of_not_mem p hle hk hin

/-- Settles O36: position 32 lies past the payload, and the tests of `PAR` and `RND` keep every position
above it out of a sum. -/
theorem parityPosition32IsZero : Obligations.ParityPosition32IsZero := by
  refine ⟨fun p => bitAt_of_width_le p le_rfl, fun p lower => parity_width p, fun p => ?_,
    fun s p lo hi hhi => ?_, fun s p hfv hout => ?_⟩
  · rw [parity_self]
    exact bitAt_of_width_le p le_rfl
  · exact exec_par_of_invalid s p fun ⟨_, hle⟩ => hhi.not_ge hle
  · refine exec_rnd_of_invalid p hfv fun ⟨⟨_, hfcu⟩, _, hcnu⟩ => ?_
    exact hout.elim hfcu.not_gt hcnu.not_gt

/-- Settles O9: `PAR` has the test on its range and nothing else, and its opcode leaves no reserved
bit. -/
theorem parReturnsParity : Obligations.ParReturnsParity := by
  refine ⟨fun s p lo hi hle hhi => ?_, fun s p lo hi hbad => ?_, fun w => decode_par_of_slices⟩
  · rw [exec_par_of_valid s p ⟨hle, hhi⟩, parity_eq_setBits p hle, parOkResponse]
  · exact exec_par_of_invalid s p (by omega)

/-- Settles O40: the two bits are the parities of the ranges, the card-number one inverted, and each
completes the count of its range to an even or an odd one. -/
theorem parityIndicators : Obligations.ParityIndicators := by
  refine fun d p hfc hcn => ⟨oddParityBit_eq d p, evenParityBit_eq d p, ?_, ?_, fun _ _ => ⟨rfl, rfl⟩⟩
  · rw [oddParityBit_eq, parity_eq_setBits p hcn, Nat.odd_iff]
    omega
  · rw [evenParityBit_eq, parity_eq_setBits p hfc, Nat.even_iff]
    omega

/-- Settles O44: the ranges the descriptor holds pass the test of `PAR`, and the first and the last digit
of the frame are the two parity bits. -/
theorem rndAgreesWithTwoPar : Obligations.RndAgreesWithTwoPar := by
  intro s p hfv hr
  obtain ⟨hfc, hcn⟩ := hr
  refine ⟨_, _, _, exec_rnd_of_valid p hfv ⟨hfc, hcn⟩, exec_par_of_valid s p hfc,
    exec_par_of_valid s p hcn, ?_, ?_⟩
  · rw [getLsbD_rspFrame_first, evenParityBit_eq, getLsbD_rspParity_zero]
  · rw [getLsbD_rspFrame_last, getLsbD_rspParity_zero, ← decide_not, decide_eq_decide,
      oddParityBit_eq_one_iff]

end

section
/-! The statements of spec/43_render.md: the natural binary width, the bits of the rendered frame, and what
`RND` answers. -/

namespace Sys2Proof.Machine

/-! ## The natural binary width -/

theorem toNat_ne_zero_of_ne_zero {p : Payload} (hp : p ≠ 0) : p.toNat ≠ 0 :=
  fun h => hp (BitVec.eq_of_toNat_eq h)

theorem nbw_of_ne_zero {p : Payload} (hp : p ≠ 0) : nbw p = Nat.log2 p.toNat + 1 := if_neg hp

/-- Rule R60: the most significant digit written is a one. -/
theorem getLsbD_nbw_sub_one {p : Payload} (hp : p ≠ 0) : p.getLsbD (nbw p - 1) = true := by
  rw [nbw_of_ne_zero hp, Nat.add_sub_cancel, ← BitVec.testBit_toNat,
    Nat.testBit_log2 (toNat_ne_zero_of_ne_zero hp)]

/-- Rule R60: no bit is set past the digits written. -/
theorem getLsbD_of_nbw_le (p : Payload) {i : Nat} (h : nbw p ≤ i) : p.getLsbD i = false := by
  rw [← BitVec.testBit_toNat]
  exact Nat.testBit_lt_two_pow
    ((toNat_lt_two_pow_nbw p).trans_le (Nat.pow_le_pow_right (by decide) h))

/-! ## The bits of the frame -/

theorem testBit_frame_first (d : Descriptor) (p : Payload) :
    (frame d p).testBit (nbw p + 1) = decide (evenParityBit d p = 1) := by
  rw [testBit_frame, if_pos rfl]

/-- Rule R62: the digits of the payload stand one position up. -/
theorem testBit_frame_digit (d : Descriptor) (p : Payload) {i : Nat} (h1 : 1 ≤ i) (hi : i ≤ nbw p) :
    (frame d p).testBit i = p.getLsbD (i - 1) := by
  rw [testBit_frame, if_neg (by omega), if_neg (by omega), if_pos hi]

theorem testBit_frame_last (d : Descriptor) (p : Payload) :
    (frame d p).testBit 0 = decide (oddParityBit d p = 1) := by
  rw [testBit_frame, if_neg (by omega), if_pos rfl]

theorem testBit_frame_of_frameLen_le (d : Descriptor) (p : Payload) {i : Nat} (h : frameLen p ≤ i) :
    (frame d p).testBit i = false :=
  Nat.testBit_lt_two_pow ((frame_lt d p).trans_le (Nat.pow_le_pow_right (by decide) h))

theorem frameLen_mem (p : Payload) : 3 ≤ frameLen p ∧ frameLen p ≤ 34 := by
  have hlo := one_le_nbw p
  have hhi := nbw_le p
  unfold frameLen
  omega

/-- Rule R66: the payload is the frame without its first and its last digit. -/
theorem frame_div_two_mod (d : Descriptor) (p : Payload) : frame d p / 2 % 2 ^ nbw p = p.toNat := by
  have hdiv : frame d p / 2 = evenParityBit d p * 2 ^ nbw p + p.toNat := by
    have ho := oddParityBit_lt_two d p
    rw [frame_eq, Nat.pow_succ, ← Nat.mul_assoc]
    omega
  rw [hdiv, Nat.mul_add_mod_self_right, Nat.mod_eq_of_lt (toNat_lt_two_pow_nbw p)]

/-- Rule R63, counted: the even-parity bit is set where the facility-code range has an odd number of set
bits. -/
theorem evenParityBit_eq_one_iff_odd {d : Descriptor} (p : Payload) (h : d.fcl.toNat ≤ d.fcu.toNat) :
    evenParityBit d p = 1 ↔ Odd (setBits p d.fcl.toNat d.fcu.toNat) := by
  rw [evenParityBit_eq, parity_eq_setBits p h, Nat.odd_iff]

/-- Rule R63, counted: the odd-parity bit is set where the card-number range has an even number of set
bits. -/
theorem oddParityBit_eq_one_iff_even {d : Descriptor} (p : Payload) (h : d.cnl.toNat ≤ d.cnu.toNat) :
    oddParityBit d p = 1 ↔ Even (setBits p d.cnl.toNat d.cnu.toNat) := by
  rw [oddParityBit_eq_one_iff, parity_eq_setBits p h, ← Nat.odd_iff, Nat.not_odd_iff_even]

/-! ## The rendered text -/

/-- The binary digits of a payload, the most significant first and none of them padding; payload 0 has one
digit (the spec's decision D15). -/
def payloadDigits (p : Payload) : List Bool := if p = 0 then [false] else (Nat.bits p.toNat).reverse

theorem payloadDigits_zero : payloadDigits 0 = [false] := rfl

theorem payloadDigits_of_ne_zero {p : Payload} (hp : p ≠ 0) :
    payloadDigits p = (Nat.bits p.toNat).reverse := if_neg hp

/-- A payload has as many digits as its natural binary width. -/
theorem length_payloadDigits (p : Payload) : (payloadDigits p).length = nbw p := by
  by_cases hp : p = 0
  · subst hp
    rfl
  · have hsize : 0 < Nat.size p.toNat := Nat.size_pos.2 (Nat.pos_of_ne_zero (toNat_ne_zero_of_ne_zero hp))
    rw [payloadDigits_of_ne_zero hp, List.length_reverse, Nat.size_eq_bits_len, nbw_eq_size]
    omega

/-- The digit at place `k` is the payload's bit `k` places below the most significant one. -/
theorem getElem_payloadDigits (p : Payload) {k : Nat} (hk : k < (payloadDigits p).length) :
    (payloadDigits p)[k] = p.getLsbD (nbw p - 1 - k) := by
  have hlen := length_payloadDigits p
  by_cases hp : p = 0
  · subst hp
    simp only [payloadDigits_zero, List.getElem_singleton]
    exact BitVec.getLsbD_zero.symm
  · simp only [payloadDigits_of_ne_zero hp, List.length_reverse] at hk hlen ⊢
    rw [List.getElem_reverse, ← BitVec.testBit_toNat, Nat.testBit_eq_inth, ← hlen,
      List.getI_eq_getElem]

/-- Rule R65: a text whose inner digits are `digits` is these between the frame's two outer digits. -/
theorem text_eq_cons_append {f : Frame} {digits : List Bool}
    (h : ∀ k (hk : k < digits.length), f.getLsbD (digits.length - k) = digits[k]) :
    text f (digits.length + 2) =
      digitChar (f.getLsbD (digits.length + 1)) ::
        (digits.map digitChar ++ [digitChar (f.getLsbD 0)]) := by
  have hinner : (List.range digits.length).map (fun k => digitChar (f.getLsbD (digits.length - k))) =
      digits.map digitChar :=
    List.ext_getElem (by simp) fun k _ hk => by
      rw [List.length_map] at hk
      simp [h k hk]
  rw [text, List.range_succ_eq_map, List.range_succ, ← hinner]
  simp [Function.comp_def]

/-- Rules R62, R65: the text of a frame is the payload's digits between the parity digits. -/
theorem text_of_toNat_eq_frame {f : Frame} {d : Descriptor} {p : Payload} (hf : f.toNat = frame d p) :
    text f (frameLen p) =
      digitChar (decide (evenParityBit d p = 1)) ::
        ((payloadDigits p).map digitChar ++ [digitChar (decide (oddParityBit d p = 1))]) := by
  have hbit : ∀ i, f.getLsbD i = (frame d p).testBit i := fun i => by rw [← BitVec.testBit_toNat, hf]
  have hlen := length_payloadDigits p
  have hinner : ∀ k (hk : k < (payloadDigits p).length),
      f.getLsbD ((payloadDigits p).length - k) = (payloadDigits p)[k] := fun k hk => by
    rw [getElem_payloadDigits, hbit, hlen, testBit_frame_digit d p (by omega) (by omega),
      Nat.sub_right_comm]
  rw [frameLen, ← hlen, text_eq_cons_append hinner, hbit, hbit, hlen, testBit_frame_first,
    testBit_frame_last]

/-! ## The response to `RND` -/

theorem rndResponse_noFormat {b : Block} (p : Payload) (hfv : b.fv = false) :
    rndResponse b p = 0x400000000000#48 :=
  (withDescriptor_noFormat _ hfv).trans errorResponse_noFormat

/-- Rules R62, R65: the text of a successful `RND` is the payload's digits between the parity digits. -/
theorem text_rndOkResponse (d : Descriptor) (p : Payload) :
    text (rspFrame (rndOkResponse (frameLen p) (frame d p)))
        (rspLen (rndOkResponse (frameLen p) (frame d p))).toNat =
      digitChar (decide (evenParityBit d p = 1)) ::
        ((payloadDigits p).map digitChar ++ [digitChar (decide (oddParityBit d p = 1))]) := by
  obtain ⟨-, -, hlen, hframe⟩ := rndOkResponse_fields d p
  rw [hlen]
  exact text_of_toNat_eq_frame hframe

/-! ## The word of `RND` -/

/-- Rule R32: with opcode 4 and the reserved bits clear, the low 32 bits are the payload. -/
theorem decode_rnd_of_slices {w : Word} (hop : slice w 47 44 = 4) (hrsv : slice w 43 32 = 0) :
    decode w = .ok (.rnd (BitVec.ofNat 32 (slice w 31 0))) := by
  simp [decode_eq_slices, hop, hrsv]

theorem decode_rnd_reserved {w : Word} (hop : slice w 47 44 = 4) (hrsv : slice w 43 32 ≠ 0) :
    decode w = .error (.reservedBits (opcodeField w)) := by
  simp [decode_eq_slices, hop, hrsv]

end Sys2Proof.Machine

open Sys2Proof Sys2Proof.Machine

/-- Settles O39: the width is the logarithm plus one, and its values follow from the size of the
number. -/
theorem naturalBinaryWidth : Obligations.NaturalBinaryWidth := by
  refine ⟨rfl, fun p hp => ⟨getLsbD_nbw_sub_one hp, fun i => getLsbD_of_nbw_le p⟩,
    fun p => ⟨one_le_nbw p, nbw_le p⟩, ?_⟩
  simp only [nbw_eq_size]
  decide

/-- Settles O41, bit by bit; the frame 7 is rendered with two lengths under one descriptor, as the digits
`111` of payload 1 and as the digits `0111` of payload 3. -/
theorem frameLayout : Obligations.FrameLayout := by
  refine ⟨fun d p => ⟨rfl, testBit_frame_first d p, fun i h1 hi => testBit_frame_digit d p h1 hi,
    testBit_frame_last d p, fun i => testBit_frame_of_frameLen_le d p, fun hp => ?_⟩,
    ⟨0, 0, 0, 1, 2, 2⟩, ⟨0, 0, 0, 1, 2, 2⟩, 1, 3, by decide, by decide, ?_, ?_⟩
  · exact (testBit_frame_digit d p (one_le_nbw p) le_rfl).trans (getLsbD_nbw_sub_one hp)
  · rw [frame, frame, nbw_eq_size, nbw_eq_size]
    decide
  · rw [frameLen, frameLen, nbw_eq_size, nbw_eq_size]
    decide

/-- Settles O10: past the two tests the response holds the length and the frame, the parities counted; a
reserved bit stops the decoding before them. -/
theorem rndReturnsFrame : Obligations.RndReturnsFrame := by
  refine ⟨fun s p n hfv hr hn => ?_, fun s p hfv => ?_, fun s p => exec_rnd_of_invalid p,
    fun w => decode_rnd_of_slices, fun s w rest hin hop hrsv => ?_⟩
  · obtain ⟨hstatus, hzero, hlen, hframe⟩ := rndOkResponse_fields s.block.d p
    have hnbw : nbw p = n := (nbw_eq_size p).trans hn.symm
    refine ⟨_, exec_rnd_of_valid p hfv hr, hstatus, hzero, ?_, ?_⟩
    · rw [hlen, frameLen, hnbw]
    · obtain ⟨⟨hfc, -⟩, hcn, -⟩ := hr
      rw [hframe, frame_eq, evenParityBit_eq, oddParityBit_eq, parity_eq_setBits p hfc,
        parity_eq_setBits p hcn, hnbw]
  · rw [exec_rnd, rndResponse_noFormat p hfv]
  · rw [step_illegal hin (decode_rnd_reserved hop hrsv), errorResponse_illegalCommand]

/-- Settles O42, from the bounds of the length and the frame as a sum of its three parts. -/
theorem renderedPayloadIsRecovered : Obligations.RenderedPayloadIsRecovered := by
  intro s p hfv hr
  obtain ⟨-, -, hlen, hframe⟩ := rndOkResponse_fields s.block.d p
  obtain ⟨hlo, hhi⟩ := frameLen_mem p
  refine ⟨_, exec_rnd_of_valid p hfv hr, ?_⟩
  rw [hlen, hframe]
  exact ⟨hlo, hhi, frame_lt s.block.d p, frame_div_two_mod s.block.d p⟩

/-- Settles O43: the digits between the two outer ones are the payload's, and the outer ones are the
parities of the ranges. -/
theorem renderedTextIsDigitsInParity : Obligations.RenderedTextIsDigitsInParity := by
  intro s p hfv hr
  refine ⟨_, exec_rnd_of_valid p hfv hr, ?_⟩
  obtain ⟨⟨hfc, -⟩, hcn, -⟩ := hr
  rw [text_rndOkResponse, payloadDigits]
  simp only [evenParityBit_eq_one_iff_odd p hfc, oddParityBit_eq_one_iff_even p hcn]

end

section
/-! The statements of spec/60_exceptions.md: when `NoFormat` is raised, which error comes first, what an
error leaves unchanged, and the step with no event. -/

namespace Sys2Proof.Machine

/-! ## The status of a response -/

/-- Rule R76, for a command that consumes the descriptor and answers `OK` past the tests. -/
theorem rspStatus_withDescriptor {b : Block} {f : Descriptor → Word} (hok : rspStatus (f b.d) = 0) :
    rspStatus (withDescriptor b f) = if b.fv = false then 4 else if ¬ b.d.RangesOk then 2 else 0 := by
  obtain ⟨hfv, he⟩ | ⟨hfv, hr, he⟩ | ⟨hfv, hr, he⟩ := withDescriptor_cases b f
  · rw [he, if_pos hfv]; decide
  · rw [he, if_neg (by simp [hfv]), if_pos hr]; decide
  · rw [he, if_neg (by simp [hfv]), if_neg (not_not_intro hr), hok]

theorem rspStatus_decResponse (b : Block) (p : Payload) :
    rspStatus (decResponse b p) = if b.fv = false then 4 else if ¬ b.d.RangesOk then 2 else 0 :=
  rspStatus_withDescriptor (decOkResponse_fields b.d p).1

theorem rspStatus_rndResponse (b : Block) (p : Payload) :
    rspStatus (rndResponse b p) = if b.fv = false then 4 else if ¬ b.d.RangesOk then 2 else 0 :=
  rspStatus_withDescriptor (rndOkResponse_fields b.d p).1

theorem rspStatus_parResponse (p : Payload) (lo hi : Idx) :
    rspStatus (parResponse p lo hi) = if ¬ (lo.toNat ≤ hi.toNat ∧ hi.toNat ≤ 32) then 2 else 0 := by
  by_cases hr : lo.toNat ≤ hi.toNat ∧ hi.toNat ≤ 32
  · rw [parResponse_ok p hr, rspStatus_parOkResponse, if_neg (not_not_intro hr)]
  · rw [(parResponse_eq_invalidRange_iff p lo hi).2 hr, if_pos hr]; decide

/-! ## `NoFormat` -/

/-- Rule R72, for a command that consumes the descriptor and answers `OK` past the tests. -/
theorem withDescriptor_eq_noFormat_iff {b : Block} {f : Descriptor → Word}
    (hok : rspStatus (f b.d) = 0) : withDescriptor b f = 0x400000000000#48 ↔ b.fv = false := by
  refine ⟨fun he => ?_, fun hfv => (withDescriptor_noFormat f hfv).trans errorResponse_noFormat⟩
  have hstatus := rspStatus_withDescriptor hok
  rw [he] at hstatus
  by_contra hfv
  rw [if_neg hfv] at hstatus
  split_ifs at hstatus <;> exact absurd hstatus (by decide)

theorem current_eq_none_iff (b : Block) : b.current = none ↔ b.fv = false := by
  cases hfv : b.fv <;> simp [Block.current, hfv]

/-! ## The opcode of a command word -/

/-- Rule R38: the opcode of a word that decodes says which command it is, and the index fields of a `PAR`
word are its range. -/
theorem decode_ok_cases {w : Word} {i : Instr} (h : decode w = .ok i) :
    (slice w 47 44 = 1 ∧ ∃ pe po fcl fcu cnl cnu, i = .ldf pe po fcl fcu cnl cnu) ∨
    (slice w 47 44 = 2 ∧ ∃ p, i = .dec p) ∨
    (slice w 47 44 = 3 ∧ ∃ p lo hi, i = .par p lo hi ∧
      lo.toNat = slice w 37 32 ∧ hi.toNat = slice w 43 38) ∨
    (slice w 47 44 = 4 ∧ ∃ p, i = .rnd p) := by
  have hfield : ∀ hi lo, hi - lo = 5 → (BitVec.ofNat 6 (slice w hi lo)).toNat = slice w hi lo :=
    fun hi lo hlen => Nat.mod_eq_of_lt (by simpa [hlen] using slice_lt w hi lo)
  rw [decode_eq_slices] at h
  split_ifs at h with hldf _ hdec _ hpar hrnd _ <;> cases h
  · exact .inl ⟨hldf, _, _, _, _, _, _, rfl⟩
  · exact .inr (.inl ⟨hdec, _, rfl⟩)
  · exact .inr (.inr (.inl ⟨hpar, _, _, _, rfl, hfield 37 32 rfl, hfield 43 38 rfl⟩))
  · exact .inr (.inr (.inr ⟨hrnd, _, rfl⟩))

/-! ## What an error carries and keeps -/

/-- Rule R74: a legal response with an error status holds nothing beside it. -/
theorem LegalResponse.eq_append_of_error {r : Word} (h : LegalResponse r) (hne : rspStatus r ≠ 0) :
    r = rspStatus r ++ 0#44 := by
  obtain ⟨-, -, hzero⟩ := h
  have hlow := (extractLsb'_eq_iff r 0 0).1 (hzero hne)
  apply BitVec.eq_of_toNat_eq
  rw [toNat_append_add, rspStatus, toNat_field]
  simp only [BitVec.toNat_zero, BitVec.ofNat_eq_ofNat] at hlow ⊢
  omega

/-- Rule R74: the one command that writes the block answers `OK`. -/
theorem blockAfter_of_error {b : Block} {i : Instr} (hne : rspStatus (responseTo b i) ≠ 0) :
    blockAfter b i = b := by
  refine blockAfter_of_ne_ldf b ?_
  rintro pe po fcl fcu cnl cnu rfl
  exact hne (by decide : rspStatus ldfResponse = 0)

end Sys2Proof.Machine

open Sys2Proof Sys2Proof.Machine

/-- Settles O11: past the tests the answers are `OK` or `InvalidRange`, so `NoFormat` comes from `FV`
alone, and `FV` is what `lastLoaded` reads from the events. -/
theorem noFormatExactlyBeforeLoad : Obligations.NoFormatExactlyBeforeLoad := by
  refine ⟨fun s p => ⟨_, _, exec_dec p s, exec_rnd p s, ?_, ?_⟩, fun es => ?_⟩
  · exact withDescriptor_eq_noFormat_iff (decOkResponse_fields s.block.d p).1
  · exact withDescriptor_eq_noFormat_iff (rndOkResponse_fields s.block.d p).1
  · rw [← current_eq_none_iff, blockHoldsLastLoaded, current_reset]

/-- Settles O14: a word that does not decode is illegal; the opcode of one that does names the command,
whose own tests come in the order of the rule. -/
theorem errorPriority : Obligations.ErrorPriority := by
  intro s w rest hin
  cases hdec : decode w with
  | error err =>
    refine ⟨_, _, step_illegal hin hdec, rfl, ?_⟩
    rw [if_pos ((illegalWord_iff w).2 ⟨err, hdec⟩)]
    decide
  | ok i =>
    have hlegal : illegalWord w = false := (illegalWord_eq_false_iff w).2 ⟨i, hdec⟩
    refine ⟨_, _, step_command hin hdec, rfl, ?_⟩
    obtain ⟨hop, pe, po, fcl, fcu, cnl, cnu, rfl⟩ | ⟨hop, p, rfl⟩ |
      ⟨hop, p, lo, hi, rfl, hlo, hhi⟩ | ⟨hop, p, rfl⟩ := decode_ok_cases hdec
    · have hstatus : rspStatus ldfResponse = 0 := by decide
      simp [hlegal, hop, responseTo, hstatus]
    · simp [hlegal, hop, responseTo, rspStatus_decResponse]
    · simp [hlegal, hop, responseTo, rspStatus_parResponse, hlo, hhi]
    · simp [hlegal, hop, responseTo, rspStatus_rndResponse]

/-- Settles O15: every response is legal, so one with an error status is the status alone, and the block
is written by `LDF` alone, which answers `OK`. -/
theorem errorsChangeNothing : Obligations.ErrorsChangeNothing := by
  intro s w rest hin
  cases hdec : decode w with
  | ok i =>
    exact ⟨_, _, step_command hin hdec, rfl, rfl, fun hne =>
      ⟨blockAfter_of_error hne, (legalResponse_responseTo s.block i).eq_append_of_error hne⟩⟩
  | error err =>
    have hlegal : LegalResponse (errorResponse .illegalCommand) :=
      legalResponse_errorResponse (by decide)
    exact ⟨_, _, step_illegal hin hdec, rfl, rfl, fun hne => ⟨rfl, hlegal.eq_append_of_error hne⟩⟩

/-- Settles O5: with no event to take, the step is the idle one. -/
theorem idleStepKeepsState : Obligations.IdleStepKeepsState := fun _ hin => step_idle hin

end

section
/-! The statements of spec/70_reset_and_hazards.md: what reset clears and what alone returns to it, the
port, and what a load is in force for. -/

namespace Sys2Proof.Machine

/-! ## Runs of events, and words presented -/

/-- A run over events and then some more: the later ones are answered from the block the earlier ones
leave. -/
theorem runEvents_append_snd (b : Block) (es fs : List Event) :
    (runEvents b (es ++ fs)).2 = (runEvents b es).2 ++ (runEvents (runEvents b es).1 fs).2 := by
  induction es generalizing b with
  | nil => rfl
  | cons e es ih =>
    rw [List.cons_append, runEvents_cons_snd, runEvents_cons_snd, runEvents_cons_fst, ih,
      List.append_assoc]

theorem applyEvent_command_encode (b : Block) (i : Instr) :
    applyEvent b (.command (encode i)) = (blockAfter b i, [responseTo b i]) :=
  applyEvent_command b (decode_encode i)

theorem runEvents_two_commands (b : Block) (i j : Instr) :
    runEvents b [.command (encode i), .command (encode j)] =
      (blockAfter (blockAfter b i) j, [responseTo b i, responseTo (blockAfter b i) j]) := by
  simp [runEvents, applyEvent_command_encode]

/-- Rules R24, R85: an `LDF` and the command that follows it at once, which is run on the block just
loaded, whatever block stood before. -/
theorem run_ldf_then_command (b : Block) (rs : List Word) (rest : List Event) (d : Descriptor)
    (i : Instr) :
    core.run 2 ⟨b, .command (encode (.ldf d.pe d.po d.fcl d.fcu d.cnl d.cnu)) ::
        .command (encode i) :: rest, rs⟩ =
      .next ⟨blockAfter ⟨d, true⟩ i, rest, rs ++ [0#48, responseTo ⟨d, true⟩ i]⟩ := by
  have hrun := stepsAreRunOfEvents [.command (encode (.ldf d.pe d.po d.fcl d.fcu d.cnl d.cnu)),
    .command (encode i)] rest b rs
  rw [runEvents_two_commands] at hrun
  exact hrun

theorem decodeTableWord_eq_some_iff (nbits w : Nat) (i : Instr) :
    decodeTableWord nbits w = some i ↔ decode (tableWord nbits w) = .ok i := by
  unfold decodeTableWord
  cases decode (tableWord nbits w) <;> simp [Except.toOption]

/-! ## Reset -/

/-- Rule R83: without an `rst` a step leaves the block as it is, or loads it. -/
theorem step_block_of_ne_rst {s t : State} (h : step s = .next t)
    (hrst : ∀ rest, s.inputs ≠ .rst :: rest) : t.block = s.block ∨ t.block.fv = true := by
  obtain ⟨-, rfl⟩ | ⟨rest, hin, -⟩ | ⟨w, rest, i, -, -, rfl⟩ | ⟨w, rest, e, -, -, rfl⟩ :=
    step_cases h
  · exact .inl rfl
  · exact absurd hin (hrst rest)
  · obtain hsame | ⟨pe, po, fcl, fcu, cnl, cnu, -, hload⟩ := blockAfter_cases s.block i
    · exact .inl hsame
    · exact .inr (by rw [hload])
  · exact .inl rfl

/-! ## `DEC` and `RND` under a loaded descriptor -/

/-- Rule R84: past the tests on the descriptor, `DEC` and `RND` answer `OK`. -/
theorem rspStatus_responseTo_of_valid {b : Block} {i : Instr} {p : Payload}
    (hi : i = .dec p ∨ i = .rnd p) (hfv : b.fv = true) (hr : b.d.RangesOk) :
    rspStatus (responseTo b i) = 0 := by
  obtain rfl | rfl := hi
  · rw [responseTo, rspStatus_decResponse, if_neg (by simp [hfv]), if_neg (not_not_intro hr)]
  · rw [responseTo, rspStatus_rndResponse, if_neg (by simp [hfv]), if_neg (not_not_intro hr)]

/-- Rule R44: under a loaded descriptor with an invalid range, `DEC` and `RND` answer `InvalidRange`. -/
theorem responseTo_of_invalid {b : Block} {i : Instr} {p : Payload}
    (hi : i = .dec p ∨ i = .rnd p) (hfv : b.fv = true) (hr : ¬ b.d.RangesOk) :
    responseTo b i = 0x200000000000#48 := by
  obtain rfl | rfl := hi
  · exact (decResponse_eq_invalidRange_iff p hfv).2 hr
  · exact (rndResponse_eq_invalidRange_iff p hfv).2 hr

/-- Rules R51, R61: `DEC` and `RND` leave the block. -/
theorem blockAfter_of_dec_or_rnd (b : Block) {i : Instr} {p : Payload} (hi : i = .dec p ∨ i = .rnd p) :
    blockAfter b i = b := by
  obtain rfl | rfl := hi
  · rfl
  · rfl

/-- Rules R61, R63: the fields of a successful `RND`, its parities counted. -/
theorem rndResponse_fields {b : Block} (p : Payload) (hfv : b.fv = true) (hr : b.d.RangesOk) :
    rspStatus (rndResponse b p) = 0 ∧ (rspLen (rndResponse b p)).toNat = nbw p + 2 ∧
    (rspFrame (rndResponse b p)).toNat =
      setBits p b.d.fcl.toNat b.d.fcu.toNat % 2 * 2 ^ (nbw p + 1) + p.toNat * 2 +
        (1 - setBits p b.d.cnl.toNat b.d.cnu.toNat % 2) := by
  rw [rndResponse_ok p hfv hr]
  obtain ⟨hstatus, -, hlen, hframe⟩ := rndOkResponse_fields b.d p
  obtain ⟨⟨hfc, -⟩, hcn, -⟩ := hr
  refine ⟨hstatus, hlen, ?_⟩
  rw [hframe, frame_eq, evenParityBit_eq, oddParityBit_eq, parity_eq_setBits p hfc,
    parity_eq_setBits p hcn]

end Sys2Proof.Machine

open Sys2Proof Sys2Proof.Machine

/-- Settles O6: events that only read leave the block as after reset, where both commands answer
`NoFormat`; and a step without an `rst` leaves the block or sets `FV`. -/
theorem onlyResetReturnsToReset : Obligations.OnlyResetReturnsToReset := by
  refine ⟨fun es p hread => ?_, fun s t hstep hreturn => ?_⟩
  · obtain ⟨hkeep, -⟩ := readersDoNotInterfere Block.reset es hread
    rw [runEvents_append_snd, hkeep, runEvents_two_commands, blockAfter, responseTo, responseTo,
      decResponse_noFormat p rfl, rndResponse_noFormat p rfl]
  · by_contra hrst
    rw [not_exists] at hrst
    obtain hsame | hset := step_block_of_ne_rst hstep hrst
    · obtain ⟨hfv, hcleared⟩ | ⟨hne, hreset⟩ := hreturn
      · rw [hsame, hfv] at hcleared
        cases hcleared
      · exact hne (hsame.symm.trans hreset)
    · obtain ⟨-, hcleared⟩ | ⟨-, hreset⟩ := hreturn
      · rw [hset] at hcleared
        cases hcleared
      · rw [hreset] at hset
        cases hset

/-- Settles O18: the `DEC` runs on the block just loaded, and its answer there holds the two fields. -/
theorem ldfGovernsNextDec : Obligations.LdfGovernsNextDec := by
  intro s pe po fcl fcu cnl cnu p rest hfc hfcu hcn hcnu
  obtain ⟨-, hfacility, hcard, -⟩ := decResponse_fields (b := ⟨⟨pe, po, fcl, fcu, cnl, cnu⟩, true⟩) p rfl
    ⟨⟨hfc, hfcu⟩, hcn, hcnu⟩
  refine ⟨_, run_ldf_then_command s.block s.responses rest ⟨pe, po, fcl, fcu, cnl, cnu⟩ (.dec p),
    hfacility.trans ?_, hcard.trans ?_⟩
  · rw [facilityCode_eq, extract_eq]
  · rw [cardNumber_eq, extract_eq]

/-- Settles O19: the step leaves the block and adds one response, which is `OK`. -/
theorem loadedValidFormatNeverFaults : Obligations.LoadedValidFormatNeverFaults := by
  intro s w rest p hin hword hfv hr hs
  obtain ⟨i, hdec, hi⟩ : ∃ i, decode w = .ok i ∧ (i = .dec p ∨ i = .rnd p) :=
    hword.elim (fun h => ⟨_, h, .inl rfl⟩) (fun h => ⟨_, h, .inr rfl⟩)
  have hok : rspStatus (responseTo s.block i) = 0 := rspStatus_responseTo_of_valid hi hfv hr
  exact ⟨_, step_command hin hdec, blockAfter_of_dec_or_rnd s.block hi, rfl,
    List.forall_mem_append.2 ⟨hs, List.forall_mem_singleton.2 hok⟩, List.length_append⟩

/-- Settles O50: the command that follows runs on the block just loaded, where it answers the frame, or
`InvalidRange` if a range is not valid. -/
theorem ldfGovernsNextRnd : Obligations.LdfGovernsNextRnd := by
  refine ⟨fun s pe po fcl fcu cnl cnu p n rest hr hn => ?_,
    fun s pe po fcl fcu cnl cnu i p rest hr hi => ?_⟩
  · cases hn.trans (nbw_eq_size p).symm
    exact ⟨_, run_ldf_then_command s.block s.responses rest ⟨pe, po, fcl, fcu, cnl, cnu⟩ (.rnd p),
      rndResponse_fields p rfl hr⟩
  · have hrun := run_ldf_then_command s.block s.responses rest ⟨pe, po, fcl, fcu, cnl, cnu⟩ i
    rwa [blockAfter_of_dec_or_rnd _ hi, responseTo_of_invalid hi rfl hr] at hrun

/-- Settles O1: the first state holds the reset block, and a step on `rst` restores it and answers
nothing. -/
theorem resetClearsBlock : Obligations.ResetClearsBlock := ⟨rfl, fun _ _ => step_rst⟩

/-- Settles O3: the word presented stands first, and the state it is taken from is the one before. -/
theorem presentedWordRunsNext : Obligations.PresentedWordRunsNext := by
  intro s nbits w i hdec
  exact stepRunsDecodedCommand (s.withFetchWord nbits w) _ s.inputs i rfl
    ((decodeTableWord_eq_some_iff nbits w i).1 hdec)

end
